-- ==== Sys2Proof/Word.lean ====
section
/-! DEFINITION. The word type of the block (P1 of rule R5) and the plainest arithmetic over it. -/

namespace Sys2Proof

/-- One 64-bit word: a register slot, a memory word, an ALU operand or result (rule R5 P1). -/
abbrev Word := BitVec 64

/-- One command frame, 136 bits (rule R80). -/
abbrev Frame := BitVec 136

/-- `bv64(n)` of rule R7: the 64-bit vector congruent to the integer `n` modulo `2^64`. -/
def bv64 (n : Int) : Word := BitVec.ofInt 64 n

/-- `MIN64` of rule R7: the most negative 64-bit value, `-2^63`. -/
abbrev min64 : Word := 0x8000000000000000#64

/-- `MAX64` of rule R7: the greatest signed 64-bit value, `2^63 - 1`. -/
abbrev max64 : Word := 0x7FFFFFFFFFFFFFFF#64

end Sys2Proof
end

