-- ==== Sys2Proof/Config.lean ====
section
/-! DEFINITION. The parameters of rule R5: those the source fixes, and the ones the spec decides
(`MEM_CAPACITY`, `MOV_SRC`, `SDIV_ROUND`, `ZERO_WRITE`), each under a name of its own so that a claim can say which
value it rests on. The machine has no opaque free value: the spec leaves no value open. -/

namespace Sys2Proof.Config

/-- P3 `ZERO_IDX`: the register index whose read value is always 0. -/
abbrev zeroIndex : Nat := 31

/-- P5 `ADDR_BITS`: legal memory keys are the naturals below this bound (rules R30, R51). -/
abbrev keyBound : Nat := 2 ^ 63

/-- P6 `SHAMT_BITS`: how many low bits of operand B are a shift amount (rule R184). -/
abbrev shiftAmountBits : Nat := 6

/-- P7 `SE_NARROW`: native width of the narrow sign-extender input (rule R231). -/
abbrev narrowWidth : Nat := 32

/-- P8 `SE_WIDE`: native width of the wide sign-extender input (rule R232). -/
abbrev wideWidth : Nat := 64

/-- How many keys the memory store can hold: the one value the spec's D14 allows for `MEM_CAPACITY`. -/
inductive MemCapacity where
  | unbounded
deriving DecidableEq, Repr

/-- P10 `MEM_CAPACITY` (rules R5, R59, decision D14 of the spec): the store never refuses a write for lack of
room. DEDUCED (log 13), safe: the spec allows no other value. -/
def memCapacity : MemCapacity := .unbounded

/-- What a read of an absent key gives (rules R30, R33, R140: implicit 0). -/
abbrev absentWord : Word := 0#64

/-- The operands `ALU.MOV` could return: the values the spec's D10 allows for `MOV_SRC`. -/
inductive MovSource where
  | operandA
  | operandB
deriving DecidableEq, Repr

/-- P11 `MOV_SRC` (rule R189, decision D10 of the spec): `ALU.MOV` returns operand B.
UNVERIFIED (log 6): the spec decides it, its source is silent; unsafe where the original differs. -/
def movSrc : MovSource := .operandB

/-- P12 `SDIV_ROUND` (rule R203, decision D11 of the spec): the signed quotient is the exact quotient
rounded toward zero. The caller of this function excludes the divisor 0 and wraps to 64 bits.
UNVERIFIED (log 7): the spec decides it, its source is silent; unsafe where the original differs. -/
def sdivRound (dividend divisor : Int) : Int := Int.tdiv dividend divisor

/-- What `RF.WRITE` to the zero register may do to storage: the values the spec's D9 allows. -/
inductive ZeroWrite where
  | store
  | ignore
deriving DecidableEq, Repr

/-- P13 `ZERO_WRITE` (rules R23, R121, decision D9 of the spec): the write is stored in `slot[31]`.
No response depends on it (rule R24). UNVERIFIED (log 8), safe: nothing observes the slot. -/
def zeroWrite : ZeroWrite := .store

end Sys2Proof.Config
end

