-- ==== Sys2Proof/Syntax.lean ====
section
/-! DEFINITION. The 26 commands of the block (rule R4), one constructor per row of the opcode table.

Each constructor carries EVERY operand field of its frame, the ignored ones too (rule R82): an error
response echoes the command frame unchanged (rule R90), so the ignored bits are part of what a command
carries, and none of them has an effect (rule R95). DESIGN CHOICE (log 4), safe. -/

namespace Sys2Proof

/-- One command of the block. `index` and `width` are integers (rule R83); an address, a value and an
ALU operand are 64-bit vectors (rules R51, R84). -/
inductive Instr where
  /-- `RF.READ index` (rule R120), format I. -/
  | rfRead (index : Int) (ignored : Word)
  /-- `RF.WRITE index, value` (rule R121), format IV. -/
  | rfWrite (index : Int) (value : Word)
  /-- `RF.CLEAR` (rule R122), format Z. -/
  | rfClear (ignoredP ignoredQ : Word)
  /-- `MEM.READ address` (rule R140), format A. -/
  | memRead (address ignored : Word)
  /-- `MEM.WRITE address, value` (rule R141), format AV. -/
  | memWrite (address value : Word)
  /-- `MEM.CLEAR` (rule R142), format Z. -/
  | memClear (ignoredP ignoredQ : Word)
  /-- `MEM.SNAPSHOT` (rule R143), format Z. -/
  | memSnapshot (ignoredP ignoredQ : Word)
  /-- `ALU.ADD A, B` (rule R165). -/
  | aluAdd (a b : Word)
  /-- `ALU.SUB A, B` (rule R166). -/
  | aluSub (a b : Word)
  /-- `ALU.AND A, B` (rule R180). -/
  | aluAnd (a b : Word)
  /-- `ALU.ORR A, B` (rule R181). -/
  | aluOrr (a b : Word)
  /-- `ALU.EOR A, B` (rule R182). -/
  | aluEor (a b : Word)
  /-- `ALU.LSL A, B` (rule R185). -/
  | aluLsl (a b : Word)
  /-- `ALU.LSR A, B` (rule R186). -/
  | aluLsr (a b : Word)
  /-- `ALU.ASR A, B` (rule R187). -/
  | aluAsr (a b : Word)
  /-- `ALU.MOV A, B` (rule R189). -/
  | aluMov (a b : Word)
  /-- `ALU.PASS_A A, B` (rule R188). -/
  | aluPassA (a b : Word)
  /-- `ALU.MUL A, B` (rule R200). -/
  | aluMul (a b : Word)
  /-- `ALU.SMULH A, B` (rule R201). -/
  | aluSmulh (a b : Word)
  /-- `ALU.UMULH A, B` (rule R202). -/
  | aluUmulh (a b : Word)
  /-- `ALU.SDIV A, B` (rule R203). -/
  | aluSdiv (a b : Word)
  /-- `ALU.UDIV A, B` (rule R204). -/
  | aluUdiv (a b : Word)
  /-- `ALU.IDLE A, B` (rule R205). -/
  | aluIdle (a b : Word)
  /-- `ALU.UNKNOWN A, B` (rule R206). `code` is `cmd[3:0]`: 0 is the canonical code `0x50`, 1 to 15 the
  reserved tag codes `0x51` to `0x5F` performed alike (rule R92). -/
  | aluUnknown (code : BitVec 4) (a b : Word)
  /-- `SE.EXTEND32 value, width` (rule R231), format VW32; `ignored` is `P[63:32]`. -/
  | seExtend32 (ignored value : BitVec 32) (width : Int)
  /-- `SE.EXTEND64 value, width` (rule R232), format VW64. -/
  | seExtend64 (value : Word) (width : Int)
deriving DecidableEq, Repr

end Sys2Proof
end

