-- ==== Sys2Proof/WellFormed.lean ====
section
/-! DEFINITION. Which typed commands a frame can carry: an integer operand must fit the 64-bit
two's-complement field that carries it (rule R83). Every other operand fits by its type. A command whose
integer is out of the LEGAL range (an index 32, a width 0) is well formed: it is performed and answers an
error (rule R258). -/

namespace Sys2Proof

/-- The integer fits a 64-bit two's-complement field (rules R7, R83). -/
def fitsSigned64 (n : Int) : Bool := decide (-2 ^ 63 ≤ n ∧ n < 2 ^ 63)

/-- The command can be carried by a command frame (rules R82, R83). -/
def Instr.wf : Instr → Bool
  | .rfRead index _ => fitsSigned64 index
  | .rfWrite index _ => fitsSigned64 index
  | .rfClear _ _ => true
  | .memRead _ _ => true
  | .memWrite _ _ => true
  | .memClear _ _ => true
  | .memSnapshot _ _ => true
  | .aluAdd _ _ => true
  | .aluSub _ _ => true
  | .aluAnd _ _ => true
  | .aluOrr _ _ => true
  | .aluEor _ _ => true
  | .aluLsl _ _ => true
  | .aluLsr _ _ => true
  | .aluAsr _ _ => true
  | .aluMov _ _ => true
  | .aluPassA _ _ => true
  | .aluMul _ _ => true
  | .aluSmulh _ _ => true
  | .aluUmulh _ _ => true
  | .aluSdiv _ _ => true
  | .aluUdiv _ _ => true
  | .aluIdle _ _ => true
  | .aluUnknown _ _ _ => true
  | .seExtend32 _ _ width => fitsSigned64 width
  | .seExtend64 _ width => fitsSigned64 width

end Sys2Proof
end

