-- ==== Sys2Proof/Decode.lean ====
section
/-! DEFINITION. Decoding a 136-bit command frame, total on every frame and rejecting the reserved codes
by name (rules R80 to R95), and encoding a command into its frame. The codes are the spec's own decisions:
DEDUCED (log 9), safe. -/

namespace Sys2Proof

/-- `cmd`, bits 135:128 of a frame (rule R80). -/
def Frame.cmd (f : Frame) : BitVec 8 := f.extractLsb' 128 8

/-- The first operand field `P`, bits 127:64 (rule R80). -/
def Frame.p (f : Frame) : Word := f.extractLsb' 64 64

/-- The second operand field `Q`, bits 63:0 (rule R80). -/
def Frame.q (f : Frame) : Word := f.extractLsb' 0 64

/-- The frame `cmd ‖ P ‖ Q` (rule R80). -/
def mkFrame (cmd : BitVec 8) (p q : Word) : Frame := cmd ++ p ++ q

/-- Why a frame spells no command: `cmd` is a reserved code (rule R93). The cases follow the unit codes of
rule R81. -/
inductive DecodeError where
  /-- `cmd` is `0x03` to `0x1F`: a reserved operation of the register file. -/
  | reservedRegisterFileCode (cmd : BitVec 8)
  /-- `cmd` is `0x24` to `0x3F`: a reserved operation of the memory store. -/
  | reservedMemoryStoreCode (cmd : BitVec 8)
  /-- `cmd` is `0x62` to `0x7F`: a reserved operation of the sign extender. -/
  | reservedSignExtenderCode (cmd : BitVec 8)
  /-- `cmd` is `0x80` to `0xFF`: a reserved unit, 4 to 7. -/
  | reservedUnit (cmd : BitVec 8)
deriving DecidableEq, Repr

/-- Unit 0, the register file (rule R85). -/
def decodeRegisterFile (f : Frame) : Except DecodeError Instr :=
  if f.cmd = 0x00#8 then .ok (.rfRead f.p.toInt f.q)
  else if f.cmd = 0x01#8 then .ok (.rfWrite f.p.toInt f.q)
  else if f.cmd = 0x02#8 then .ok (.rfClear f.p f.q)
  else .error (.reservedRegisterFileCode f.cmd)

/-- Unit 1, the memory store (rule R86). -/
def decodeMemoryStore (f : Frame) : Except DecodeError Instr :=
  if f.cmd = 0x20#8 then .ok (.memRead f.p f.q)
  else if f.cmd = 0x21#8 then .ok (.memWrite f.p f.q)
  else if f.cmd = 0x22#8 then .ok (.memClear f.p f.q)
  else if f.cmd = 0x23#8 then .ok (.memSnapshot f.p f.q)
  else .error (.reservedMemoryStoreCode f.cmd)

/-- Unit 2, the ALU: the tag of `op = cmd[4:0]` (rule R87); the reserved tags 17 to 31 are performed as
`ALU.UNKNOWN` (rule R92), so that this unit has no invalid code. DEDUCED (log 10), safe. -/
def decodeAlu (f : Frame) : Instr :=
  if f.cmd = 0x40#8 then .aluAdd f.p f.q
  else if f.cmd = 0x41#8 then .aluSub f.p f.q
  else if f.cmd = 0x42#8 then .aluAnd f.p f.q
  else if f.cmd = 0x43#8 then .aluOrr f.p f.q
  else if f.cmd = 0x44#8 then .aluEor f.p f.q
  else if f.cmd = 0x45#8 then .aluLsl f.p f.q
  else if f.cmd = 0x46#8 then .aluLsr f.p f.q
  else if f.cmd = 0x47#8 then .aluAsr f.p f.q
  else if f.cmd = 0x48#8 then .aluMov f.p f.q
  else if f.cmd = 0x49#8 then .aluPassA f.p f.q
  else if f.cmd = 0x4A#8 then .aluMul f.p f.q
  else if f.cmd = 0x4B#8 then .aluSmulh f.p f.q
  else if f.cmd = 0x4C#8 then .aluUmulh f.p f.q
  else if f.cmd = 0x4D#8 then .aluSdiv f.p f.q
  else if f.cmd = 0x4E#8 then .aluUdiv f.p f.q
  else if f.cmd = 0x4F#8 then .aluIdle f.p f.q
  else .aluUnknown (f.cmd.extractLsb' 0 4) f.p f.q

/-- Unit 3, the sign extender (rule R88). -/
def decodeSignExtender (f : Frame) : Except DecodeError Instr :=
  if f.cmd = 0x60#8 then .ok (.seExtend32 (f.p.extractLsb' 32 32) (f.p.extractLsb' 0 32) f.q.toInt)
  else if f.cmd = 0x61#8 then .ok (.seExtend64 f.p f.q.toInt)
  else .error (.reservedSignExtenderCode f.cmd)

/-- The command a frame spells, or why it spells none: by the unit code `cmd[7:5]` (rule R81), then by
the operation; the operand fields never select a command (rule R95). -/
def decode (f : Frame) : Except DecodeError Instr :=
  if f.cmd.extractLsb' 5 3 = 0#3 then decodeRegisterFile f
  else if f.cmd.extractLsb' 5 3 = 1#3 then decodeMemoryStore f
  else if f.cmd.extractLsb' 5 3 = 2#3 then .ok (decodeAlu f)
  else if f.cmd.extractLsb' 5 3 = 3#3 then decodeSignExtender f
  else .error (.reservedUnit f.cmd)

/-- The command frame of a command (rules R80 to R88). -/
def encode : Instr → Frame
  | .rfRead index ignored => mkFrame 0x00 (bv64 index) ignored
  | .rfWrite index value => mkFrame 0x01 (bv64 index) value
  | .rfClear p q => mkFrame 0x02 p q
  | .memRead address ignored => mkFrame 0x20 address ignored
  | .memWrite address value => mkFrame 0x21 address value
  | .memClear p q => mkFrame 0x22 p q
  | .memSnapshot p q => mkFrame 0x23 p q
  | .aluAdd a b => mkFrame 0x40 a b
  | .aluSub a b => mkFrame 0x41 a b
  | .aluAnd a b => mkFrame 0x42 a b
  | .aluOrr a b => mkFrame 0x43 a b
  | .aluEor a b => mkFrame 0x44 a b
  | .aluLsl a b => mkFrame 0x45 a b
  | .aluLsr a b => mkFrame 0x46 a b
  | .aluAsr a b => mkFrame 0x47 a b
  | .aluMov a b => mkFrame 0x48 a b
  | .aluPassA a b => mkFrame 0x49 a b
  | .aluMul a b => mkFrame 0x4A a b
  | .aluSmulh a b => mkFrame 0x4B a b
  | .aluUmulh a b => mkFrame 0x4C a b
  | .aluSdiv a b => mkFrame 0x4D a b
  | .aluUdiv a b => mkFrame 0x4E a b
  | .aluIdle a b => mkFrame 0x4F a b
  | .aluUnknown code a b => mkFrame (0x5#4 ++ code) a b
  | .seExtend32 ignored value width => mkFrame 0x60 (ignored ++ value) (bv64 width)
  | .seExtend64 value width => mkFrame 0x61 value (bv64 width)

/-- The same command with zeros in every ignored field: the command of the canonical frame
(rules R82, R92). -/
def Instr.canonical : Instr → Instr
  | .rfRead index _ => .rfRead index 0
  | .rfWrite index value => .rfWrite index value
  | .rfClear _ _ => .rfClear 0 0
  | .memRead address _ => .memRead address 0
  | .memWrite address value => .memWrite address value
  | .memClear _ _ => .memClear 0 0
  | .memSnapshot _ _ => .memSnapshot 0 0
  | .aluAdd a b => .aluAdd a b
  | .aluSub a b => .aluSub a b
  | .aluAnd a b => .aluAnd a b
  | .aluOrr a b => .aluOrr a b
  | .aluEor a b => .aluEor a b
  | .aluLsl a b => .aluLsl a b
  | .aluLsr a b => .aluLsr a b
  | .aluAsr a b => .aluAsr a b
  | .aluMov a b => .aluMov a b
  | .aluPassA a b => .aluPassA a b
  | .aluMul a b => .aluMul a b
  | .aluSmulh a b => .aluSmulh a b
  | .aluUmulh a b => .aluUmulh a b
  | .aluSdiv a b => .aluSdiv a b
  | .aluUdiv a b => .aluUdiv a b
  | .aluIdle a b => .aluIdle a b
  | .aluUnknown _ a b => .aluUnknown 0 a b
  | .seExtend32 _ value width => .seExtend32 0 value width
  | .seExtend64 value width => .seExtend64 value width

/-- The name of a command in the spec's notation (rules R4, R97), as the opcode table spells it. -/
def Instr.mnemonic : Instr → String
  | .rfRead _ _ => "RF.READ"
  | .rfWrite _ _ => "RF.WRITE"
  | .rfClear _ _ => "RF.CLEAR"
  | .memRead _ _ => "MEM.READ"
  | .memWrite _ _ => "MEM.WRITE"
  | .memClear _ _ => "MEM.CLEAR"
  | .memSnapshot _ _ => "MEM.SNAPSHOT"
  | .aluAdd _ _ => "ALU.ADD"
  | .aluSub _ _ => "ALU.SUB"
  | .aluAnd _ _ => "ALU.AND"
  | .aluOrr _ _ => "ALU.ORR"
  | .aluEor _ _ => "ALU.EOR"
  | .aluLsl _ _ => "ALU.LSL"
  | .aluLsr _ _ => "ALU.LSR"
  | .aluAsr _ _ => "ALU.ASR"
  | .aluMov _ _ => "ALU.MOV"
  | .aluPassA _ _ => "ALU.PASS_A"
  | .aluMul _ _ => "ALU.MUL"
  | .aluSmulh _ _ => "ALU.SMULH"
  | .aluUmulh _ _ => "ALU.UMULH"
  | .aluSdiv _ _ => "ALU.SDIV"
  | .aluUdiv _ _ => "ALU.UDIV"
  | .aluIdle _ _ => "ALU.IDLE"
  | .aluUnknown _ _ _ => "ALU.UNKNOWN"
  | .seExtend32 _ _ _ => "SE.EXTEND32"
  | .seExtend64 _ _ => "SE.EXTEND64"

/-- One row of the command table: a frame spells the row's command exactly when its `cmd`, masked, is the
row's code (the `cmd_match` and `cmd_mask` of the opcode table). -/
structure CommandRow where
  mnemonic : String
  cmdMatch : BitVec 8
  cmdMask : BitVec 8
deriving DecidableEq, Repr

/-- The frame spells this row's command (rule R95). -/
def CommandRow.spells (row : CommandRow) (f : Frame) : Bool := f.cmd &&& row.cmdMask == row.cmdMatch

/-- The command table, 26 rows (rules R85 to R88, R92). -/
def commandTable : List CommandRow :=
  [⟨"RF.READ", 0x00, 0xFF⟩, ⟨"RF.WRITE", 0x01, 0xFF⟩, ⟨"RF.CLEAR", 0x02, 0xFF⟩,
   ⟨"MEM.READ", 0x20, 0xFF⟩, ⟨"MEM.WRITE", 0x21, 0xFF⟩, ⟨"MEM.CLEAR", 0x22, 0xFF⟩,
   ⟨"MEM.SNAPSHOT", 0x23, 0xFF⟩,
   ⟨"ALU.ADD", 0x40, 0xFF⟩, ⟨"ALU.SUB", 0x41, 0xFF⟩, ⟨"ALU.AND", 0x42, 0xFF⟩,
   ⟨"ALU.ORR", 0x43, 0xFF⟩, ⟨"ALU.EOR", 0x44, 0xFF⟩, ⟨"ALU.LSL", 0x45, 0xFF⟩,
   ⟨"ALU.LSR", 0x46, 0xFF⟩, ⟨"ALU.ASR", 0x47, 0xFF⟩, ⟨"ALU.MOV", 0x48, 0xFF⟩,
   ⟨"ALU.PASS_A", 0x49, 0xFF⟩, ⟨"ALU.MUL", 0x4A, 0xFF⟩, ⟨"ALU.SMULH", 0x4B, 0xFF⟩,
   ⟨"ALU.UMULH", 0x4C, 0xFF⟩, ⟨"ALU.SDIV", 0x4D, 0xFF⟩, ⟨"ALU.UDIV", 0x4E, 0xFF⟩,
   ⟨"ALU.IDLE", 0x4F, 0xFF⟩, ⟨"ALU.UNKNOWN", 0x50, 0xF0⟩,
   ⟨"SE.EXTEND32", 0x60, 0xFF⟩, ⟨"SE.EXTEND64", 0x61, 0xFF⟩]

/-- The frame whose low `nbits` bits are those of `w`, numbered as the opcode table numbers them (the
136-bit frame is the table's one word: bit 0 is `Q[0]`, bit 135 is `cmd[7]`), every other bit 0. -/
def frameOfTableWord (nbits w : Nat) : Frame := BitVec.ofNat 136 (w % 2 ^ nbits)

/-- What the decoder reads from the instruction whose bits are `w`, numbered as the opcode table numbers
them: the block's frame is carried whole, so there is no byte order to lay out (rule R80). -/
def decodeTableWord (nbits w : Nat) : Option Instr := (decode (frameOfTableWord nbits w)).toOption

end Sys2Proof
end

