-- ==== Sys2Proof/Machine/State.lean ====
section
/-! DEFINITION. The state of the block and of its command interface, as plain data, and the reasons a
step can stop. -/

namespace Sys2Proof.Machine

/-- The attempted operation an `InvalidRegisterIndex` carries: 'read' or 'write' (rule R252). -/
inductive RegisterAccess where
  | read
  | write
deriving DecidableEq, Repr

/-- The closed taxonomy of error kinds, each with its required context (rules R250, R251). An error is no
stop of the machine: the failed command answers it and the next command is performed (rules R258, R262).
The collaborators' two kinds: DESIGN CHOICE (log 15), safe. -/
inductive ErrorKind where
  /-- `RF.READ` and `RF.WRITE`, index outside 0 to 31 (rule R252). -/
  | invalidRegisterIndex (index : Int) (access : RegisterAccess)
  /-- `MEM.READ` and `MEM.WRITE`, negative address (rule R253). -/
  | negativeAddress (address : Int)
  /-- `SE.EXTEND32` and `SE.EXTEND64`, width outside the form's range (rule R254). -/
  | invalidBitWidth (width : Int)
  /-- `ALU.SDIV` and `ALU.UDIV`, zero divisor (rule R255). -/
  | divisionByZero (operandA operandB : Word)
  /-- Raised by collaborators only, never by this block (rule R256). -/
  | invalidProgramCounter (address : Int)
  /-- A collaborators' wrapper, never produced by this block (rule R257). The spec gives the program
  counter and the cycle count no width. -/
  | simulationFailure (wrapped : ErrorKind) (programCounter : Int) (cycleCount : Nat)
deriving DecidableEq, Repr

/-- The ALU outcome (rule R160) with the unknown marker (rules R89, R206). -/
structure AluOutcome where
  result : Word
  negative : Bool
  zero : Bool
  carry : Bool
  overflow : Bool
  unknown : Bool
deriving DecidableEq, Repr

/-- What a command answers (rules R10, R89 to R91). -/
inductive Response where
  /-- Success without a result: `RF.WRITE`, `RF.CLEAR`, `MEM.WRITE`, `MEM.CLEAR`. -/
  | done
  /-- Success with a 64-bit result and no flags: `RF.READ`, `MEM.READ`, `SE.EXTEND32`, `SE.EXTEND64`. -/
  | result (value : Word)
  /-- Success of an ALU command. -/
  | alu (outcome : AluOutcome)
  /-- The answer of `MEM.SNAPSHOT`: (key, word) pairs (rule R143). -/
  | snapshot (entries : List (Nat × Word))
  /-- An error with its context and the command frame that caused it (rules R89, R90): no outcome. -/
  | error (kind : ErrorKind) (echo : Frame)
deriving DecidableEq, Repr

/-- What the outside world puts on the block's interface, one at a time: a command frame of the caller
(rule R6) or the reset event, which is outside the command stream (rule R290). -/
inductive Input where
  | command (frame : Frame)
  | reset
deriving DecidableEq, Repr

/-- The memory store: the present keys with their words, keys strictly rising (rule R30). Every key names
its own whole word (rule R52), so an entry is a word and not a byte; presence is state, so an entry whose
word is 0 is kept (rule R31). DEDUCED (log 3), safe. -/
abbrev Memory := List (Nat × Word)

/-- The state: the block's own (`slot`, `mem`), which is complete (rule R20), and the two ends of its
command interface, which are the model's fields and not the block's (log 2). -/
structure State where
  /-- The 32 storage cells of the register file (rule R21). -/
  slot : Vector Word 32
  /-- The memory map (rule R30). -/
  mem : Memory
  /-- What the outside world will put on the interface, next first. -/
  inputs : List Input
  /-- The responses given so far, the newest first. -/
  responses : List Response
deriving DecidableEq, Repr

/-- Why the machine stops without a refusal. -/
inductive Fault where
  /-- `step` only: the caller has issued no more commands, so the run has ended (rules R6, R304). DEDUCED
  (log 5). Safe: the block has no step without a command. -/
  | noCommand
deriving DecidableEq, Repr

/-- Why an input is no step of the machine. -/
inductive Refusal where
  /-- `exec` only: an instruction without a meaning. No arm answers it. Safe. -/
  | notModelled (mnemonic : String)
  /-- `step` only: the frame's `cmd` is a reserved code, so it spells no command and the block defines no
  response to it (rule R93). DEDUCED (log 5). Safe: the spec asks a model to refuse it. -/
  | invalidCommand (why : DecodeError)
deriving DecidableEq, Repr

/-- The machine right after reset (rules R33, R290): every slot 0, no key present; nothing has been put on
the interface and nothing answered (log 2). -/
def State.reset : State where
  slot := Vector.replicate 32 0#64
  mem := []
  inputs := []
  responses := []

end Sys2Proof.Machine
end

