-- ==== Sys2Proof/Machine/Flags.lean ====
section
/-! DEFINITION. The four flag rules of the ALU (rules R161 to R164) and the three shapes of an ALU outcome
(rule R169). -/

namespace Sys2Proof.Machine

/-- `N = R[63]` (rule R161). -/
def negativeFlag (r : Word) : Bool := r.getLsbD 63

/-- `Z`: the result is 64 zero bits (rule R162). -/
def zeroFlag (r : Word) : Bool := r == 0#64

/-- `C` from the exact sum of the 64-bit addition (rules R163, R165, R166). -/
def carryFlag (sum : Nat) : Bool := decide (2 ^ 64 ≤ sum)

/-- `V` of ADD: the operands share a sign and the result differs in sign (rules R164, R165). -/
def overflowAdd (a b r : Word) : Bool :=
  a.getLsbD 63 == b.getLsbD 63 && r.getLsbD 63 != a.getLsbD 63

/-- `V` of SUB: the operands differ in sign and the result differs in sign from `A` (rules R164, R166). It is
not the ADD rule applied to the negated operand (conflict C4). -/
def overflowSub (a b r : Word) : Bool :=
  a.getLsbD 63 != b.getLsbD 63 && r.getLsbD 63 != a.getLsbD 63

/-- The outcome of every tag but ADD, SUB and the markers: `N` and `Z` from the result, `C = V = 0`
(rules R163, R164, R169). -/
def plainOutcome (r : Word) : AluOutcome where
  result := r
  negative := negativeFlag r
  zero := zeroFlag r
  carry := false
  overflow := false
  unknown := false

/-- The outcome of the markers: result 0 and all flags false, the zero flag too (rules R162, R205, R206). -/
def markerOutcome (unknown : Bool) : AluOutcome where
  result := 0
  negative := false
  zero := false
  carry := false
  overflow := false
  unknown := unknown

end Sys2Proof.Machine
end

