-- ==== Sys2Proof/Machine/Ops.lean ====
section
/-! DEFINITION. The named operations over the register file, the memory store and the command interface;
raising an error is one shared operation. -/

namespace Sys2Proof.Machine

/-- The outcome type of every meaning. -/
abbrev Result := Host.Outcome State Fault Refusal

/-! Memory store -/

/-- `MemRead(a, 8)`: the word at a key, the implicit 0 where the key is absent (rules R9, R30;
laws (a) to (c) of rule R144). -/
def Memory.read : Memory → Nat → Word
  | [], _ => Config.absentWord
  | (key, word) :: rest, a => if key = a then word else Memory.read rest a

/-- The key is present (rule R31). -/
def Memory.present : Memory → Nat → Bool
  | [], _ => false
  | (key, _) :: rest, a => key == a || Memory.present rest a

/-- `MemWrite(a, 8, v)`: the key becomes present with this word, every other key stays (rule R9; laws
(b), (e) and (f) of rule R144). The keys stay strictly rising. -/
def Memory.write : Memory → Nat → Word → Memory
  | [], a, v => [(a, v)]
  | (key, word) :: rest, a, v =>
    if a < key then (a, v) :: (key, word) :: rest
    else if a = key then (a, v) :: rest
    else (key, word) :: Memory.write rest a v

/-- All stored entries in ascending order of their keys (rule R143, law (h) of rule R144): the
canonical form itself. -/
def Memory.snapshot (m : Memory) : List (Nat × Word) := m

/-- The canonical form: keys strictly rising, each a legal key (rule R30). Equal maps are equal data. -/
abbrev Memory.wf (m : Memory) : Prop :=
  m.Pairwise (fun e e' => e.1 < e'.1) ∧ ∀ e ∈ m, e.1 < Config.keyBound

/-! Register file -/

/-- `x[i]`, the architectural read: 0 for the zero register, else the slot (rule R22). -/
def State.readReg (s : State) (i : Fin 32) : Word :=
  if i.val = Config.zeroIndex then 0 else s.slot[i]

/-- `x[i] <- v`, the architectural write: it stores at every index, the zero register's slot too under
`ZERO_WRITE` = store (rules R23, R121). -/
def State.writeReg (s : State) (i : Fin 32) (v : Word) : State :=
  if Config.zeroWrite = .ignore ∧ i.val = Config.zeroIndex then s
  else { s with slot := s.slot.set i v }

/-- Every slot to 0 (rule R122). -/
def State.clearRegs (s : State) : State := { s with slot := Vector.replicate 32 0#64 }

/-- `MemWrite` on the state (rule R141): no write is refused for lack of room, under `MEM_CAPACITY` = unbounded
(rule R59). -/
def State.writeMem (s : State) (key : Nat) (v : Word) : State :=
  match Config.memCapacity with
  | .unbounded => { s with mem := s.mem.write key v }

/-- The empty map (rule R142, law (c) of rule R144). -/
def State.clearMem (s : State) : State := { s with mem := [] }

/-- The reset event: the creation state of the block (rule R290). It is no command: nothing is answered
and the caller's later commands stay. -/
def State.resetBlock (s : State) : State := s.clearRegs.clearMem

/-! Command interface -/

/-- The next input and the state without it (rule R6: one at a time). -/
def State.takeInput (s : State) : Option (Input × State) :=
  match s.inputs with
  | [] => none
  | input :: rest => some (input, { s with inputs := rest })

/-- The state with one more response given. -/
def State.respond (s : State) (r : Response) : State := { s with responses := r :: s.responses }

/-- The command completes with this response. -/
def complete (s : State) (r : Response) : Result := .next (s.respond r)

/-- `raise Kind(info)` (rules R9, R258): the command `i` ends at once with an error response that carries
the kind, its context and the frame of the command (rule R90); `slot` and `mem` are what they were. There is
no handler and no return: the next command is performed normally and no record is kept in the block
(rule R262). DEDUCED (log 1): the error is a response of a next state. -/
def raise (kind : ErrorKind) (i : Instr) (s : State) : Result :=
  complete s (.error kind (encode i))

/-- Perform the command `i` behind its operand check: raise what the check found, else go on with what it
gives. The check comes first and nothing is changed before it (rules R120, R259). -/
def guarded {α : Type} (i : Instr) (s : State) (check : Except ErrorKind α) (go : α → Result) : Result :=
  match check with
  | .error kind => raise kind i s
  | .ok x => go x

end Sys2Proof.Machine
end

