-- ==== Sys2Proof/Machine/AluArith.lean ====
section
/-! DEFINITION. The meanings of `ALU.ADD` and `ALU.SUB` (rules R165, R166). -/

namespace Sys2Proof.Machine

/-- The outcome of ADD from the exact sum (rule R165). -/
def addOutcome (a b : Word) : AluOutcome :=
  let sum := a.toNat + b.toNat
  let r := bv64 sum
  { result := r
    negative := negativeFlag r
    zero := zeroFlag r
    carry := carryFlag sum
    overflow := overflowAdd a b r
    unknown := false }

/-- The outcome of SUB from the exact three-term sum `u(A) + u(~B) + 1` (rule R166). -/
def subOutcome (a b : Word) : AluOutcome :=
  let sum := a.toNat + (~~~b).toNat + 1
  let r := bv64 sum
  { result := r
    negative := negativeFlag r
    zero := zeroFlag r
    carry := carryFlag sum
    overflow := overflowSub a b r
    unknown := false }

/-- `ALU.ADD` (rule R165). -/
def execAluAdd (a b : Word) (s : State) : Result := complete s (.alu (addOutcome a b))

/-- `ALU.SUB` (rule R166). -/
def execAluSub (a b : Word) (s : State) : Result := complete s (.alu (subOutcome a b))

end Sys2Proof.Machine
end

