-- ==== Sys2Proof/Machine/Operands.lean ====
section
/-! DEFINITION. What the operands of a command mean: the register index, the memory key, the divisor, the
width and the shift amount, each with the check that raises the unit's one error kind (rule R261). -/

namespace Sys2Proof.Machine

/-- A register index: 0 to 31, else `InvalidRegisterIndex` (rules R120, R121, R252). -/
def registerIndex (index : Int) (access : RegisterAccess) : Except ErrorKind (Fin 32) :=
  if h : 0 ≤ index ∧ index ≤ 31 then .ok ⟨index.toNat, by omega⟩
  else .error (.invalidRegisterIndex index access)

/-- A memory key: `u(A)` where `s(A)` is not negative, else `NegativeAddress` (rules R51, R253). Alignment is
not checked (rule R54). -/
def memoryKey (address : Word) : Except ErrorKind Nat :=
  if address.toInt < 0 then .error (.negativeAddress address.toInt) else .ok address.toNat

/-- A divisor: not zero, else `DivisionByZero` with both operands (rules R208, R255). -/
def divisor (a b : Word) : Except ErrorKind Word :=
  if b = 0#64 then .error (.divisionByZero a b) else .ok b

/-- A width of the sign extender: 1 to the native width, else `InvalidBitWidth` (rules R231, R232, R254). -/
def extendWidth (native : Nat) (width : Int) : Except ErrorKind Nat :=
  if 1 ≤ width ∧ width ≤ native then .ok width.toNat else .error (.invalidBitWidth width)

/-- A shift amount: `u(B[5:0])`, 0 to 63 (rule R184). -/
def shiftAmount (b : Word) : Nat := (b.extractLsb' 0 Config.shiftAmountBits).toNat

end Sys2Proof.Machine
end

