-- ==== Sys2Proof/Machine/AluLogic.lean ====
section
/-! DEFINITION. The meanings of the logical, shift and move commands of the ALU (rules R180 to R189). -/

namespace Sys2Proof.Machine

/-- The result of LSL: `bv64(u(A) * 2^sh)` (rule R185). -/
def lslResult (a b : Word) : Word := bv64 (a.toNat * 2 ^ shiftAmount b : Nat)

/-- The result of LSR: `bv64(floor(u(A) / 2^sh))` (rule R186). -/
def lsrResult (a b : Word) : Word := bv64 (a.toNat / 2 ^ shiftAmount b : Nat)

/-- The result of ASR: `bv64(floor(s(A) / 2^sh))` (rule R187). -/
def asrResult (a b : Word) : Word := bv64 (Int.fdiv a.toInt (2 ^ shiftAmount b))

/-- The result of MOV: the operand `MOV_SRC` names (rule R189). -/
def movResult (a b : Word) : Word :=
  match Config.movSrc with
  | .operandA => a
  | .operandB => b

/-- `ALU.AND` (rule R180). -/
def execAluAnd (a b : Word) (s : State) : Result := complete s (.alu (plainOutcome (a &&& b)))

/-- `ALU.ORR` (rule R181). -/
def execAluOrr (a b : Word) (s : State) : Result := complete s (.alu (plainOutcome (a ||| b)))

/-- `ALU.EOR` (rule R182). -/
def execAluEor (a b : Word) (s : State) : Result := complete s (.alu (plainOutcome (a ^^^ b)))

/-- `ALU.LSL` (rule R185). -/
def execAluLsl (a b : Word) (s : State) : Result := complete s (.alu (plainOutcome (lslResult a b)))

/-- `ALU.LSR` (rule R186). -/
def execAluLsr (a b : Word) (s : State) : Result := complete s (.alu (plainOutcome (lsrResult a b)))

/-- `ALU.ASR` (rule R187). -/
def execAluAsr (a b : Word) (s : State) : Result := complete s (.alu (plainOutcome (asrResult a b)))

/-- `ALU.MOV` (rule R189). -/
def execAluMov (a b : Word) (s : State) : Result := complete s (.alu (plainOutcome (movResult a b)))

/-- `ALU.PASS_A` (rule R188): operand B is ignored. -/
def execAluPassA (a _b : Word) (s : State) : Result := complete s (.alu (plainOutcome a))

end Sys2Proof.Machine
end

