-- ==== Sys2Proof/Machine/AluMulDiv.lean ====
section
/-! DEFINITION. The meanings of the multiply, divide and marker commands of the ALU (rules R200 to R208). -/

namespace Sys2Proof.Machine

/-- The low 64 bits of the signed product (rule R200). -/
def mulResult (a b : Word) : Word := bv64 (a.toInt * b.toInt)

/-- The high 64 bits of the signed 128-bit product, by floor (rule R201). -/
def smulhResult (a b : Word) : Word := bv64 (Int.fdiv (a.toInt * b.toInt) (2 ^ 64))

/-- The high 64 bits of the unsigned 128-bit product (rule R202). -/
def umulhResult (a b : Word) : Word := bv64 (a.toNat * b.toNat / 2 ^ 64 : Nat)

/-- The signed quotient by a divisor that is not zero, rounded as `SDIV_ROUND` says and wrapped to 64 bits
(rule R203). -/
def sdivResult (a d : Word) : Word := bv64 (Config.sdivRound a.toInt d.toInt)

/-- The unsigned quotient by a divisor that is not zero (rule R204). -/
def udivResult (a d : Word) : Word := bv64 (a.toNat / d.toNat : Nat)

/-- `ALU.MUL` (rule R200). -/
def execAluMul (a b : Word) (s : State) : Result := complete s (.alu (plainOutcome (mulResult a b)))

/-- `ALU.SMULH` (rule R201). -/
def execAluSmulh (a b : Word) (s : State) : Result := complete s (.alu (plainOutcome (smulhResult a b)))

/-- `ALU.UMULH` (rule R202). -/
def execAluUmulh (a b : Word) (s : State) : Result := complete s (.alu (plainOutcome (umulhResult a b)))

/-- `ALU.SDIV` (rules R203, R208). -/
def execAluSdiv (a b : Word) (s : State) : Result :=
  guarded (.aluSdiv a b) s (divisor a b) fun d => complete s (.alu (plainOutcome (sdivResult a d)))

/-- `ALU.UDIV` (rules R204, R208). -/
def execAluUdiv (a b : Word) (s : State) : Result :=
  guarded (.aluUdiv a b) s (divisor a b) fun d => complete s (.alu (plainOutcome (udivResult a d)))

/-- `ALU.IDLE` (rule R205): the operands are ignored and the zero flag is 0. -/
def execAluIdle (_a _b : Word) (s : State) : Result := complete s (.alu (markerOutcome false))

/-- `ALU.UNKNOWN` and the reserved ALU codes (rules R92, R206): no error, the marker is 1. -/
def execAluUnknown (_code : BitVec 4) (_a _b : Word) (s : State) : Result :=
  complete s (.alu (markerOutcome true))

end Sys2Proof.Machine
end

