-- ==== Sys2Proof/Machine/MemoryStore.lean ====
section
/-! DEFINITION. The meanings of the memory-store commands (rules R140 to R143). -/

namespace Sys2Proof.Machine

/-- `MEM.READ` (rule R140): an absent key stays absent (rule R56). -/
def execMemRead (address ignored : Word) (s : State) : Result :=
  guarded (.memRead address ignored) s (memoryKey address) fun key =>
    complete s (.result (s.mem.read key))

/-- `MEM.WRITE` (rule R141). -/
def execMemWrite (address value : Word) (s : State) : Result :=
  guarded (.memWrite address value) s (memoryKey address) fun key =>
    complete (s.writeMem key value) .done

/-- `MEM.CLEAR` (rule R142): the fields `P` and `Q` are ignored. -/
def execMemClear (_ignoredP _ignoredQ : Word) (s : State) : Result :=
  complete s.clearMem .done

/-- `MEM.SNAPSHOT` (rule R143): every present key is listed, those whose word is 0 too (decision D22 of
the spec). DEDUCED (log 12), unsafe where the original leaves those out. -/
def execMemSnapshot (_ignoredP _ignoredQ : Word) (s : State) : Result :=
  complete s (.snapshot s.mem.snapshot)

end Sys2Proof.Machine
end

