-- ==== Sys2Proof/Machine/RegisterFile.lean ====
section
/-! DEFINITION. The meanings of the register-file commands (rules R120 to R122). -/

namespace Sys2Proof.Machine

/-- `RF.READ` (rule R120). -/
def execRfRead (index : Int) (ignored : Word) (s : State) : Result :=
  guarded (.rfRead index ignored) s (registerIndex index .read) fun i =>
    complete s (.result (s.readReg i))

/-- `RF.WRITE` (rule R121). -/
def execRfWrite (index : Int) (value : Word) (s : State) : Result :=
  guarded (.rfWrite index value) s (registerIndex index .write) fun i =>
    complete (s.writeReg i value) .done

/-- `RF.CLEAR` (rule R122): the fields `P` and `Q` are ignored. -/
def execRfClear (_ignoredP _ignoredQ : Word) (s : State) : Result :=
  complete s.clearRegs .done

end Sys2Proof.Machine
end

