-- ==== Sys2Proof/Machine/SignExtender.lean ====
section
/-! DEFINITION. The meanings of the sign-extension commands (rules R230 to R233). -/

namespace Sys2Proof.Machine

/-- `sext_N(v)` (rules R8, R233): bits `N-1` to 0 of `v`, every higher bit a copy of bit `N-1`, at the
narrow form's native width too (decision D12 of the spec). DEDUCED (log 11), unsafe where the original
zero-fills. -/
def sext {native : Nat} (n : Nat) (v : BitVec native) : Word := (v.setWidth n).signExtend 64

/-- `SE.EXTEND32` (rule R231): the high half of `P` is ignored. -/
def execSeExtend32 (ignored value : BitVec 32) (width : Int) (s : State) : Result :=
  guarded (.seExtend32 ignored value width) s (extendWidth Config.narrowWidth width) fun n =>
    complete s (.result (sext n value))

/-- `SE.EXTEND64` (rule R232). -/
def execSeExtend64 (value : Word) (width : Int) (s : State) : Result :=
  guarded (.seExtend64 value width) s (extendWidth Config.wideWidth width) fun n =>
    complete s (.result (sext n value))

end Sys2Proof.Machine
end

