-- ==== Sys2Proof/Machine/Dispatch.lean ====
section
/-! DEFINITION. The dispatch of a command to its meaning, one arm per command. -/

namespace Sys2Proof.Machine

/-- Perform one command (rule R6). -/
def exec (i : Instr) (s : State) : Host.Outcome State Fault Refusal :=
  match i with
  | .rfRead index ignored => Sys2Proof.Machine.execRfRead index ignored s
  | .rfWrite index value => Sys2Proof.Machine.execRfWrite index value s
  | .rfClear p q => Sys2Proof.Machine.execRfClear p q s
  | .memRead address ignored => Sys2Proof.Machine.execMemRead address ignored s
  | .memWrite address value => Sys2Proof.Machine.execMemWrite address value s
  | .memClear p q => Sys2Proof.Machine.execMemClear p q s
  | .memSnapshot p q => Sys2Proof.Machine.execMemSnapshot p q s
  | .aluAdd a b => Sys2Proof.Machine.execAluAdd a b s
  | .aluSub a b => Sys2Proof.Machine.execAluSub a b s
  | .aluAnd a b => Sys2Proof.Machine.execAluAnd a b s
  | .aluOrr a b => Sys2Proof.Machine.execAluOrr a b s
  | .aluEor a b => Sys2Proof.Machine.execAluEor a b s
  | .aluLsl a b => Sys2Proof.Machine.execAluLsl a b s
  | .aluLsr a b => Sys2Proof.Machine.execAluLsr a b s
  | .aluAsr a b => Sys2Proof.Machine.execAluAsr a b s
  | .aluMov a b => Sys2Proof.Machine.execAluMov a b s
  | .aluPassA a b => Sys2Proof.Machine.execAluPassA a b s
  | .aluMul a b => Sys2Proof.Machine.execAluMul a b s
  | .aluSmulh a b => Sys2Proof.Machine.execAluSmulh a b s
  | .aluUmulh a b => Sys2Proof.Machine.execAluUmulh a b s
  | .aluSdiv a b => Sys2Proof.Machine.execAluSdiv a b s
  | .aluUdiv a b => Sys2Proof.Machine.execAluUdiv a b s
  | .aluIdle a b => Sys2Proof.Machine.execAluIdle a b s
  | .aluUnknown code a b => Sys2Proof.Machine.execAluUnknown code a b s
  | .seExtend32 ignored value width => Sys2Proof.Machine.execSeExtend32 ignored value width s
  | .seExtend64 value width => Sys2Proof.Machine.execSeExtend64 value width s

end Sys2Proof.Machine
end

