-- ==== Sys2Proof/Machine/Step.lean ====
section
/-! DEFINITION. One step: the next input of the caller is taken from the interface and performed. -/

namespace Sys2Proof.Machine

/-- One step (rule R6). A command is decoded and performed completely; a reset event puts the block in its
creation state (rule R290); a frame with a reserved code is refused and is no step (rule R93); with no input
the run has ended (rule R304). -/
def step (s : State) : Host.Outcome State Fault Refusal :=
  match s.takeInput with
  | none => .fault .noCommand
  | some (.reset, t) => .next t.resetBlock
  | some (.command frame, t) =>
    match decode frame with
    | .error why => .refused (.invalidCommand why)
    | .ok i => exec i t

/-- The state with the table word's frame as the caller's next command: the block fetches no program
(rule R64), so the next instruction is the next command on its interface. -/
def State.withFetchWord (s : State) (nbits w : Nat) : State :=
  { s with inputs := .command (frameOfTableWord nbits w) :: s.inputs }

end Sys2Proof.Machine
end

