-- ==== Sys2Proof/Machine/Wire.lean ====
section
/-! DEFINITION. The responses as the block's interface carries them (rules R89 to R91, R251): the 73-bit
response frame, the entry frames of a snapshot and the context an error's echo holds. -/

namespace Sys2Proof.Machine

/-- One response frame, 73 bits (rule R89). -/
abbrev ResponseFrame := BitVec 73

/-- The code of an error kind in the field `err` (rule R251). -/
def ErrorKind.code : ErrorKind → BitVec 4
  | .invalidRegisterIndex _ _ => 1
  | .negativeAddress _ => 2
  | .invalidBitWidth _ => 3
  | .divisionByZero _ _ => 4
  | .invalidProgramCounter _ => 5
  | .simulationFailure _ _ _ => 6

/-- The field `err` of a response: 0 for success (rules R89, R251). -/
def Response.err : Response → BitVec 4
  | .done => 0
  | .result _ => 0
  | .alu _ => 0
  | .snapshot _ => 0
  | .error kind _ => kind.code

/-- The frame `err ‖ unk ‖ N ‖ Z ‖ C ‖ V ‖ R` (rule R89). -/
def mkResponseFrame (err : BitVec 4) (unk n z c v : Bool) (r : Word) : ResponseFrame :=
  err ++ BitVec.ofBool unk ++ BitVec.ofBool n ++ BitVec.ofBool z ++ BitVec.ofBool c ++
    BitVec.ofBool v ++ r

/-- The response frame of a response (rules R89, R91): the fields a response does not carry are 0. -/
def Response.frame : Response → ResponseFrame
  | .done => mkResponseFrame 0 false false false false false 0
  | .result value => mkResponseFrame 0 false false false false false value
  | .alu o => mkResponseFrame 0 o.unknown o.negative o.zero o.carry o.overflow o.result
  | .snapshot entries =>
    mkResponseFrame 0 false false false false false (BitVec.ofNat 64 entries.length)
  | .error kind _ => mkResponseFrame kind.code false false false false false 0

/-- The entry frames that follow the response frame of a snapshot: `key ‖ word`, 128 bits each, in the
order of the entries (rule R91). -/
def Response.entryFrames : Response → List (BitVec 128)
  | .done => []
  | .result _ => []
  | .alu _ => []
  | .snapshot entries => entries.map fun e => BitVec.ofNat 64 e.1 ++ e.2
  | .error _ _ => []

/-- The command frame that accompanies an error response (rule R90). -/
def Response.echo : Response → Option Frame
  | .done => none
  | .result _ => none
  | .alu _ => none
  | .snapshot _ => none
  | .error _ frame => some frame

/-- The error kind and context that the receiver of an error reads off `err` and the echoed frame
(rule R90); none for a code the block never drives (rule R251). -/
def errorContext (err : BitVec 4) (echo : Frame) : Option ErrorKind :=
  if err = 1#4 then
    some (.invalidRegisterIndex echo.p.toInt (if echo.cmd = 0x00#8 then .read else .write))
  else if err = 2#4 then some (.negativeAddress echo.p.toInt)
  else if err = 3#4 then some (.invalidBitWidth echo.q.toInt)
  else if err = 4#4 then some (.divisionByZero echo.p echo.q)
  else none

end Sys2Proof.Machine
end

