-- ==== Sys2Proof/Safety.lean ====
section
/-! DEFINITION. The terms in which claims speak of runs: what a run must keep, what an observer sees, and
what a run of inputs should have left in a register or a memory word. -/

namespace Sys2Proof.Machine

/-- The response is an error (rule R258). -/
def Response.isError : Response → Bool
  | .done => false
  | .result _ => false
  | .alu _ => false
  | .snapshot _ => false
  | .error _ _ => true

/-- The response without the echoed frame of an error, which repeats the command's ignored fields too. -/
def Response.withoutEcho : Response → Response
  | .done => .done
  | .result value => .result value
  | .alu outcome => .alu outcome
  | .snapshot entries => .snapshot entries
  | .error kind _ => .error kind 0

/-- A response this block can drive: `err` is 0 to 4 (rule R251), a set marker comes with result 0 and no
flag (rule R206), and a snapshot is strictly ascending with legal keys (rule R143). -/
def Response.wf : Response → Bool
  | .done => true
  | .result _ => true
  | .alu o => !o.unknown || o == markerOutcome true
  | .snapshot entries => decide (Memory.wf entries)
  | .error kind _ => decide (kind.code ≤ 4#4)

/-- What every step keeps: the memory in its canonical form and every response given one that the block
can drive. -/
abbrev State.wf (s : State) : Prop := s.mem.wf ∧ ∀ r ∈ s.responses, r.wf = true

/-- The command an input carries, if its frame spells one. -/
def Input.command? : Input → Option Instr
  | .command frame => (decode frame).toOption
  | .reset => none

/-- The input is a step of the machine: the reset event, or a frame that spells a command (rule R93). -/
def Input.valid : Input → Bool
  | .command frame => (decode frame).toOption.isSome
  | .reset => true

/-- Two states that differ at most in the hidden cell `slot[31]` (rule R24). -/
abbrev SameButZeroSlot (s t : State) : Prop :=
  (∀ i : Fin 32, i.val ≠ Config.zeroIndex → s.slot[i] = t.slot[i]) ∧
    s.mem = t.mem ∧ s.inputs = t.inputs ∧ s.responses = t.responses

/-- Two outcomes of the same kind: next states in the relation, or the same reason to stop. -/
def OutcomesAgree (related : State → State → Prop) : Result → Result → Prop
  | .next s, .next t => related s t
  | .fault e, .fault e' => e = e'
  | .refused e, .refused e' => e = e'
  | _, _ => False

/-- The word the latest effective write leaves at a key, given the word there before: the inputs are taken
oldest first, and a clear or a reset leaves 0 (rule R60). -/
def latestWord (key : Nat) : List Input → Word → Word
  | [], before => before
  | .reset :: rest, _ => latestWord key rest 0
  | .command frame :: rest, before =>
    match decode frame with
    | .ok (.memWrite address value) =>
      latestWord key rest (if address.msb = false ∧ address.toNat = key then value else before)
    | .ok (.memClear _ _) => latestWord key rest 0
    | _ => latestWord key rest before

/-- The value the latest effective write leaves in a slot, given the value there before (rule R60). -/
def latestSlot (i : Fin 32) : List Input → Word → Word
  | [], before => before
  | .reset :: rest, _ => latestSlot i rest 0
  | .command frame :: rest, before =>
    match decode frame with
    | .ok (.rfWrite index value) => latestSlot i rest (if index = i.val then value else before)
    | .ok (.rfClear _ _) => latestSlot i rest 0
    | _ => latestSlot i rest before

/-- A register dump: the 32 reads of the registers, index 0 first (rules R98, R304). -/
def registerDump : List Instr := (List.range 32).map fun n => .rfRead n 0

/-- The laws of the memory store that rule R144 lists, at one state of the block. A key is carried as an address
that is not negative (rule R51). -/
structure MemoryStoreLaws (s : State) : Prop where
  /-- (a): after a reset and any valid inputs without a write to `a`, a read of `a` answers 0. -/
  readsZeroBeforeAnyWrite : ∀ (a ignored : Word) (inputs : List Input), 0 ≤ a.toInt →
    (∀ x ∈ inputs, x.valid = true ∧ ∀ v, x.command? ≠ some (.memWrite a v)) →
      ∃ t : State, core.run (inputs.length + 1) { s with inputs := .reset :: inputs } = .next t ∧
        exec (.memRead a ignored) t = .next (t.respond (.result 0))
  /-- (b): a write to `a`, then a read of `a`. -/
  readsWhatIsWritten : ∀ a v ignored : Word, 0 ≤ a.toInt →
    ∃ t, exec (.memWrite a v) s = .next t ∧
      exec (.memRead a ignored) t = .next (t.respond (.result v))
  /-- (c): a clear makes every address read 0. -/
  readsZeroAfterClear : ∀ a p q ignored : Word, 0 ≤ a.toInt →
    ∃ t, exec (.memClear p q) s = .next t ∧
      exec (.memRead a ignored) t = .next (t.respond (.result 0))
  /-- (d): every negative address is an error of a read and of a write. -/
  refusesNegative : ∀ a v : Word, a.toInt < 0 →
    exec (.memRead a v) s =
        .next (s.respond (.error (.negativeAddress a.toInt) (encode (.memRead a v)))) ∧
      exec (.memWrite a v) s =
        .next (s.respond (.error (.negativeAddress a.toInt) (encode (.memWrite a v))))
  /-- (e): a write to `a` leaves what a read of any other key returns, however close. -/
  writeLeavesOthers : ∀ a b v ignored : Word, 0 ≤ a.toInt → 0 ≤ b.toInt → b ≠ a →
    ∃ t w, exec (.memWrite a v) s = .next t ∧
      exec (.memRead b ignored) s = .next (s.respond (.result w)) ∧
      exec (.memRead b ignored) t = .next (t.respond (.result w))
  /-- (f): the last of two writes wins. -/
  lastWriteWins : ∀ a v w ignored : Word, 0 ≤ a.toInt →
    ∃ t u, exec (.memWrite a v) s = .next t ∧ exec (.memWrite a w) t = .next u ∧
      exec (.memRead a ignored) u = .next (u.respond (.result w))
  /-- (g): a read and a snapshot change no state; all they do is answer. -/
  readersChangeNothing : ∀ a p q : Word,
    (∃ r, exec (.memRead a p) s = .next (s.respond r)) ∧
      ∃ r, exec (.memSnapshot p q) s = .next (s.respond r)
  /-- (h): the snapshot is strictly ascending and holds `(a, w)` exactly where `a` is present with `w`. -/
  snapshotIsTheMap : ∀ p q : Word,
    ∃ es : List (Nat × Word), exec (.memSnapshot p q) s = .next (s.respond (.snapshot es)) ∧
      es.Pairwise (fun e e' => e.1 < e'.1) ∧
      ∀ a w, (a, w) ∈ es ↔ s.mem.present a = true ∧ s.mem.read a = w

/-- How many commands, not counting reset events, a list of inputs holds. -/
def commandCount : List Input → Nat
  | [] => 0
  | .reset :: rest => commandCount rest
  | .command _ :: rest => commandCount rest + 1

end Sys2Proof.Machine
end

