-- ==== Sys2Proof/Certificates/Slice0/Obligations.lean ====
section
/-! DEFINITION. The statements for the provers, each over every state, also those no run reaches. A statement of
one command's effect begins with the frame that carries the command (rules R82 to R88). -/

open Sys2Proof Sys2Proof.Machine

/-! Terms of the statements -/

/-- The state after a command that answers `r` and changes nothing else: no slot, no key of the memory, no
input still to come, no earlier response. -/
def Sys2Proof.Machine.State.answered (s : State) (r : Response) : State :=
  { slot := s.slot, mem := s.mem, inputs := s.inputs, responses := r :: s.responses }

/-- The command answers an ALU outcome and nothing else of the state changes. -/
def Sys2Proof.Machine.AnswersOutcome (i : Instr) (s : State) (o : AluOutcome) : Prop :=
  exec i s = .next (s.answered (.alu o))

/-- The command answers an error of this kind with its own frame and nothing else changes. -/
def Sys2Proof.Machine.AnswersError (i : Instr) (s : State) (kind : ErrorKind) : Prop :=
  exec i s = .next (s.answered (.error kind (encode i)))

/-- The flags of every tag but ADD, SUB and the markers, from the result alone (rule R169). -/
def Sys2Proof.Machine.AluOutcome.PlainFlags (o : AluOutcome) : Prop :=
  (o.negative = true ↔ o.result.toInt < 0) ∧ (o.zero = true ↔ o.result = 0#64) ∧
    o.carry = false ∧ o.overflow = false ∧ o.unknown = false

/-! Encoding -/

/-- Every command that a frame can carry is read back from its frame, every field at every value. -/
def Obligations.DecodeOfEncodeIsTheCommand : Prop :=
  ∀ i : Instr, i.wf = true → decode (encode i) = .ok i

/-- What a frame decodes to is well formed and encodes to that frame again, ignored bits included. -/
def Obligations.EncodeOfDecodeIsTheFrame : Prop :=
  ∀ (f : Frame) (i : Instr), decode f = .ok i → i.wf = true ∧ encode i = f

/-- The decoder's verdict is the command table's (rule R95): a frame decodes to a command of exactly the
row it spells, and is rejected exactly where it spells no row. -/
def Obligations.DecoderFollowsCommandTable : Prop :=
  ∀ f : Frame,
    (∀ i, decode f = .ok i →
      ∀ row ∈ commandTable, row.spells f = true ↔ row.mnemonic = i.mnemonic) ∧
    ((∃ why, decode f = .error why) ↔ ∀ row ∈ commandTable, row.spells f = false)

/-- Frames written out in the spec decode to the commands written beside them (rule R99; tables 2.9 and 2.12
of the vectors). -/
def Obligations.WorkedFramesDecode : Prop :=
  decode 0x400000000000000001FFFFFFFFFFFFFFFF#136 = .ok (.aluAdd 1 (-1)) ∧
  decode 0x0100000000000000050000000000000010#136 = .ok (.rfWrite 5 0x10) ∧
  decode 0x00FFFFFFFFFFFFFFFF0000000000000000#136 = .ok (.rfRead (-1) 0) ∧
  decode 0x2100000000000010001122334455667788#136 = .ok (.memWrite 0x1000 0x1122334455667788) ∧
  decode 0x60000000000000000A0000000000000004#136 = .ok (.seExtend32 0 0xA 4) ∧
  decode 0x2200000000000000000000000000000000#136 = .ok (.memClear 0 0) ∧
  decode 0x4FFFFFFFFFFFFFFFFFFFFFFFFFFFFFFFFF#136 = .ok (.aluIdle (-1) (-1)) ∧
  decode 0x5A00000000000000050000000000000007#136 = .ok (.aluUnknown 0xA 5 7) ∧
  decode 0x6100000001800000000000000000000021#136 = .ok (.seExtend64 0x180000000 33) ∧
  decode 0x0300000000000000000000000000000000#136 = .error (.reservedRegisterFileCode 0x03) ∧
  decode 0xA500000000000000000000000000000000#136 = .error (.reservedUnit 0xA5)

/-- Two commands that differ only in ignored fields (rules R82, R95) have the same effect and answer alike;
only the echo of an error, which repeats the frame as it came (rule R90), may differ. -/
def Obligations.IgnoredFieldsHaveNoEffect : Prop :=
  ∀ (i j : Instr) (s : State), i.canonical = j.canonical →
    ∃ t u, exec i s = .next t ∧ exec j s = .next u ∧ t.slot = u.slot ∧ t.mem = u.mem ∧
      t.inputs = u.inputs ∧
      t.responses.map Response.withoutEcho = u.responses.map Response.withoutEcho

/-! The step and the interface -/

/-- A step performs the command of the next frame on the interface: it removes that frame and runs `exec`
on what the frame decodes to (rule R6), and the decoded command is well formed. -/
def Obligations.StepPerformsDecodedCommand : Prop :=
  ∀ (s : State) (f : Frame) (rest : List Input) (i : Instr),
    s.inputs = .command f :: rest → decode f = .ok i →
      i.wf = true ∧
      step s = exec i { slot := s.slot, mem := s.mem, inputs := rest, responses := s.responses }

/-- A frame is refused, and is no step, exactly where its code is one rule R93 reserves (decision D6 of the
spec). -/
def Obligations.StepRefusesExactlyReservedCodes : Prop :=
  ∀ (s : State) (f : Frame) (rest : List Input), s.inputs = .command f :: rest →
    ((∃ why, step s = .refused (.invalidCommand why)) ↔
      (0x03 ≤ f.cmd.toNat ∧ f.cmd.toNat ≤ 0x1F) ∨ (0x24 ≤ f.cmd.toNat ∧ f.cmd.toNat ≤ 0x3F) ∨
      (0x62 ≤ f.cmd.toNat ∧ f.cmd.toNat ≤ 0x7F) ∨ 0x80 ≤ f.cmd.toNat)

/-- The machine right after reset: every slot 0, the hidden one too, and no key present (rule R33). -/
def Obligations.ResetStateIsZeroAndEmpty : Prop :=
  (∀ i : Fin 32, State.reset.slot[i] = 0#64 ∧ State.reset.readReg i = 0#64) ∧
    ∀ a : Nat, State.reset.mem.present a = false ∧ State.reset.mem.read a = 0#64

/-- A reset event, from any state, and the two clear commands in either order leave the same block: the
creation state (rules R290, R291). A reset answers nothing. -/
def Obligations.ResetEqualsBothClears : Prop :=
  ∀ (s : State) (rest : List Input) (p q p' q' : Word), s.inputs = .reset :: rest →
    step s = .next { slot := State.reset.slot, mem := State.reset.mem, inputs := rest,
                     responses := s.responses } ∧
    (∃ t u, exec (.rfClear p q) s = .next t ∧ exec (.memClear p' q') t = .next u ∧
      u.slot = State.reset.slot ∧ u.mem = State.reset.mem) ∧
    (∃ t u, exec (.memClear p' q') s = .next t ∧ exec (.rfClear p q) t = .next u ∧
      u.slot = State.reset.slot ∧ u.mem = State.reset.mem)

/-! Register file -/

/-- `RF.READ`: in range it answers 0 for index 31 and the slot for every other index, never an error for a
register nothing has written; out of range it answers `InvalidRegisterIndex` (rule R120). -/
def Obligations.RfReadAnswersRegister : Prop :=
  ∀ (index : Int) (ignored : Word) (s : State),
    encode (.rfRead index ignored) = mkFrame 0x00 (bv64 index) ignored ∧
    (∀ i : Fin 32, index = i.val → i.val ≠ 31 →
      exec (.rfRead index ignored) s = .next (s.answered (.result s.slot[i]))) ∧
    (index = 31 → exec (.rfRead index ignored) s = .next (s.answered (.result 0))) ∧
    (index < 0 ∨ 31 < index →
      AnswersError (.rfRead index ignored) s (.invalidRegisterIndex index .read))

/-- `RF.WRITE`: in range, index 31 included, it stores the value in that slot and changes no other slot and
no memory; out of range it answers `InvalidRegisterIndex` and no slot changes (rule R121). That index 31 is
stored too is decision D9 of the spec, the parameter `ZERO_WRITE` (log 8). -/
def Obligations.RfWriteStoresOneSlot : Prop :=
  ∀ (index : Int) (value : Word) (s : State),
    encode (.rfWrite index value) = mkFrame 0x01 (bv64 index) value ∧
    (∀ i : Fin 32, index = i.val →
      ∃ t, exec (.rfWrite index value) s = .next t ∧ t.slot[i] = value ∧
        (∀ j : Fin 32, j ≠ i → t.slot[j] = s.slot[j]) ∧ t.mem = s.mem ∧ t.inputs = s.inputs ∧
        t.responses = .done :: s.responses) ∧
    (index < 0 ∨ 31 < index →
      AnswersError (.rfWrite index value) s (.invalidRegisterIndex index .write))

/-- `RF.CLEAR` sets all 32 slots to 0, the hidden one too, and leaves the memory (rule R122). -/
def Obligations.RfClearZeroesEverySlot : Prop :=
  ∀ (p q : Word) (s : State),
    encode (.rfClear p q) = mkFrame 0x02 p q ∧
    ∃ t, exec (.rfClear p q) s = .next t ∧
    (∀ i : Fin 32, t.slot[i] = 0#64) ∧ t.mem = s.mem ∧ t.inputs = s.inputs ∧
    t.responses = .done :: s.responses

/-- The laws of the register file over two or three commands (rule R123): read after write at the same index
and at every other index, the zero register, the last write wins, a read changes nothing. -/
def Obligations.RegisterReadAfterWrite : Prop :=
  ∀ (i j : Fin 32) (v w ignored : Word) (s : State),
    ∃ t u, exec (.rfWrite i.val v) s = .next t ∧ exec (.rfWrite i.val w) t = .next u ∧
      exec (.rfRead j.val ignored) t =
        .next (t.answered (.result (if j.val = 31 then 0 else if j = i then v else s.readReg j))) ∧
      exec (.rfRead j.val ignored) u =
        .next (u.answered (.result (if j.val = 31 then 0 else if j = i then w else s.readReg j)))

/-- The cell `slot[31]` is hidden (rule R24): runs of any length from two states that differ only there have
the same responses and end alike, and `RF.WRITE 31, v` leaves a state that differs only there from the one
it would leave if it stored nothing. -/
def Obligations.ZeroSlotIsHidden : Prop :=
  (∀ (n : Nat) (s t : State), SameButZeroSlot s t →
    OutcomesAgree SameButZeroSlot (core.run n s) (core.run n t)) ∧
  ∀ (v : Word) (s : State), ∃ t, exec (.rfWrite 31 v) s = .next t ∧
    SameButZeroSlot t (s.answered .done)

/-- Only `RF.WRITE`, `RF.CLEAR` and reset change a slot, and only `MEM.WRITE`, `MEM.CLEAR` and reset change
the memory, whatever step is taken (rules R21, R30, R50, R124). -/
def Obligations.OnlyTheWritersChangeState : Prop :=
  ∀ (s t : State), step s = .next t →
    (t.slot ≠ s.slot →
      s.inputs.head? = some .reset ∨
      ∃ f i, s.inputs.head? = some (.command f) ∧ decode f = .ok i ∧
        ((∃ index value, i = .rfWrite index value) ∨ ∃ p q, i = .rfClear p q)) ∧
    (t.mem ≠ s.mem →
      s.inputs.head? = some .reset ∨
      ∃ f i, s.inputs.head? = some (.command f) ∧ decode f = .ok i ∧
        ((∃ address value, i = .memWrite address value) ∨ ∃ p q, i = .memClear p q))

/-! Memory store -/

/-- `MEM.READ`: at a non-negative address it answers the word of that exact key, 0 where the key is absent,
and changes nothing; at a negative address it answers `NegativeAddress` (rule R140). -/
def Obligations.MemReadAnswersWord : Prop :=
  ∀ (address ignored : Word) (s : State), s.mem.wf →
    encode (.memRead address ignored) = mkFrame 0x20 address ignored ∧
    (0 ≤ address.toInt →
      ∃ w, exec (.memRead address ignored) s = .next (s.answered (.result w)) ∧
        (∀ v, (address.toNat, v) ∈ s.mem → w = v) ∧
        ((∀ v, (address.toNat, v) ∉ s.mem) → w = 0#64)) ∧
    (address.toInt < 0 →
      AnswersError (.memRead address ignored) s (.negativeAddress address.toInt))

/-- `MEM.WRITE`: at a non-negative address, aligned or not, it makes that key present with the value and
changes no other key, however close, and no slot; at a negative address it answers `NegativeAddress` and the
memory is unchanged (rule R141). -/
def Obligations.MemWriteStoresOneKey : Prop :=
  ∀ (address value : Word) (s : State),
    encode (.memWrite address value) = mkFrame 0x21 address value ∧
    (0 ≤ address.toInt →
      ∃ t, exec (.memWrite address value) s = .next t ∧
        t.mem.read address.toNat = value ∧ t.mem.present address.toNat = true ∧
        (∀ k, k ≠ address.toNat →
          t.mem.read k = s.mem.read k ∧ t.mem.present k = s.mem.present k) ∧
        t.slot = s.slot ∧ t.inputs = s.inputs ∧ t.responses = .done :: s.responses) ∧
    (address.toInt < 0 →
      AnswersError (.memWrite address value) s (.negativeAddress address.toInt))

/-- `MEM.CLEAR` makes every key absent, so that every read gives 0, and leaves the slots (rule R142). -/
def Obligations.MemClearErasesEveryKey : Prop :=
  ∀ (p q : Word) (s : State),
    encode (.memClear p q) = mkFrame 0x22 p q ∧
    ∃ t, exec (.memClear p q) s = .next t ∧
    (∀ k, t.mem.present k = false ∧ t.mem.read k = 0#64) ∧ t.slot = s.slot ∧
    t.inputs = s.inputs ∧ t.responses = .done :: s.responses

/-- `MEM.SNAPSHOT` answers a list strictly ascending by key that holds `(a, w)` exactly where `a` is present
with word `w`, 0 words too, and changes nothing (rules R143, R144; that words 0 are listed is decision D22
of the spec). -/
def Obligations.MemSnapshotListsPresentKeys : Prop :=
  ∀ (p q : Word) (s : State), s.mem.wf →
    encode (.memSnapshot p q) = mkFrame 0x23 p q ∧
    ∃ es : List (Nat × Word), exec (.memSnapshot p q) s = .next (s.answered (.snapshot es)) ∧
      es.Pairwise (fun e e' => e.1 < e'.1) ∧
      ∀ a w, (a, w) ∈ es ↔ s.mem.present a = true ∧ s.mem.read a = w

/-- The laws of the memory store over two or three commands (rules R52, R54, R144): read after write at the
same address and at every other one, however close or misaligned, the last write wins, a read inserts no
key. -/
def Obligations.MemoryReadAfterWrite : Prop :=
  ∀ (a b v w ignored : Word) (s : State), 0 ≤ a.toInt → 0 ≤ b.toInt →
    ∃ t u, exec (.memWrite a v) s = .next t ∧ exec (.memWrite a w) t = .next u ∧
      exec (.memRead b ignored) t =
        .next (t.answered (.result (if b = a then v else s.mem.read b.toNat))) ∧
      exec (.memRead b ignored) u =
        .next (u.answered (.result (if b = a then w else s.mem.read b.toNat)))

/-! Whole runs -/

/-- Every step keeps the invariant: the memory's keys strictly rising and legal, and every response one the
block can drive, with `err` from 0 to 4 (rules R30, R143, R206, R251). -/
def Obligations.StepKeepsWellFormed : Prop :=
  ∀ s t : State, s.wf → step s = .next t → t.wf

/-- The invariant holds right after reset: no key is present (rule R33), and there is no response that could fail
it. That State has a list of responses and that it is empty at reset is the model's choice (log 2). -/
def Obligations.ResetIsWellFormed : Prop := State.reset.wf

/-- Sequential consistency (rule R60): after a run of any valid inputs from any state, every key holds the
value of the latest write to it with no reset or clear after it, and so does every slot. Rule R60 says
the latter of the registers other than 31; that the hidden cell `slot[31]` keeps its latest write too is decision
D9 of the spec, the parameter `ZERO_WRITE` = store (log 8). -/
def Obligations.RunLeavesLatestWrites : Prop :=
  ∀ s : State, (∀ x ∈ s.inputs, x.valid = true) →
    ∃ t, core.run s.inputs.length s = .next t ∧ t.inputs = [] ∧
      (∀ k, t.mem.read k = latestWord k s.inputs (s.mem.read k)) ∧
      ∀ i : Fin 32, t.slot[i] = latestSlot i s.inputs s.slot[i]

/-- Every command of a run is answered exactly once, whatever it is and whatever went before, a reset event
not at all, and no answer is withdrawn (rules R89, R303). -/
def Obligations.RunAnswersEveryCommand : Prop :=
  ∀ s : State, (∀ x ∈ s.inputs, x.valid = true) →
    ∃ t new, core.run s.inputs.length s = .next t ∧ t.responses = new ++ s.responses ∧
      new.length = commandCount s.inputs

/-- No response already given has any influence: from two states with the same block and inputs a step does
the same and answers the same, so that after an error the next command is performed normally
(rules R20, R262). -/
def Obligations.EarlierResponsesHaveNoInfluence : Prop :=
  ∀ s t : State, s.slot = t.slot → s.mem = t.mem → s.inputs = t.inputs →
    OutcomesAgree
      (fun s' t' => s'.slot = t'.slot ∧ s'.mem = t'.mem ∧ s'.inputs = t'.inputs ∧
        ∃ new, s'.responses = new ++ s.responses ∧ t'.responses = new ++ t.responses)
      (step s) (step t)

/-- Every command has an outcome in every state and on all operand values: a next state with exactly one
more response, never a stop (rules R293, R303). -/
def Obligations.EveryCommandCompletes : Prop :=
  ∀ (i : Instr) (s : State), ∃ t r, exec i s = .next t ∧ t.responses = r :: s.responses ∧
    t.inputs = s.inputs ∧ r.err ≤ 4#4

/-- A register dump is 32 reads (rules R98, R304): run from any state, it answers the 32 architectural
values, index 31 as 0, and changes nothing of the block. -/
def Obligations.RegisterDumpShowsEveryRegister : Prop :=
  ∀ (s : State) (rest : List Input),
    s.inputs = registerDump.map (fun i => Input.command (encode i)) ++ rest →
      core.run 32 s = .next
        { slot := s.slot, mem := s.mem, inputs := rest,
          responses := ((List.finRange 32).map fun i => Response.result (s.readReg i)).reverse
            ++ s.responses }

/-- In canonical form a map is its keys and their words: two memories with the same present keys and the same
words are the same data (rule R30: keys unique, insertion order irrelevant). -/
def Obligations.EqualMapsAreEqualData : Prop :=
  ∀ m m' : Memory, m.wf → m'.wf →
    (∀ a, m.present a = m'.present a ∧ m.read a = m'.read a) → m = m'

/-! Errors -/

/-- An error changes nothing of the block, echoes the command's own frame and is the only new response
(rules R90, R258). -/
def Obligations.ErrorsChangeNothing : Prop :=
  ∀ (i : Instr) (s t : State) (kind : ErrorKind) (f : Frame) (earlier : List Response),
    exec i s = .next t → t.responses = .error kind f :: earlier →
      f = encode i ∧ t = s.answered (.error kind f)

/-- The context an error carries is what its receiver reads off `err` and the echoed frame (rule R90). -/
def Obligations.ErrorContextIsInTheEcho : Prop :=
  ∀ (i : Instr) (s t : State) (kind : ErrorKind) (f : Frame), i.wf = true →
    exec i s = .next t → t.responses = .error kind f :: s.responses →
      errorContext kind.code f = some kind

/-- `InvalidRegisterIndex` is answered by `RF.READ` and `RF.WRITE` exactly when the index is below 0 or above
31, with the index and the attempted operation, and by nothing else (rule R252). -/
def Obligations.InvalidRegisterIndexExactly : Prop :=
  ∀ (i : Instr) (s : State) (index : Int) (access : RegisterAccess),
    AnswersError i s (.invalidRegisterIndex index access) ↔
      (index < 0 ∨ 31 < index) ∧
        ((access = .read ∧ ∃ ignored, i = .rfRead index ignored) ∨
          (access = .write ∧ ∃ value, i = .rfWrite index value))

/-- `NegativeAddress` is answered by `MEM.READ` and `MEM.WRITE` exactly when the address is negative, with the
address, and by nothing else; a misaligned address never raises it (rule R253). -/
def Obligations.NegativeAddressExactly : Prop :=
  ∀ (i : Instr) (s : State) (n : Int),
    AnswersError i s (.negativeAddress n) ↔
      n < 0 ∧ ∃ a : Word, a.toInt = n ∧
        ((∃ ignored, i = .memRead a ignored) ∨ ∃ value, i = .memWrite a value)

/-- `InvalidBitWidth` is answered by `SE.EXTEND32` exactly for a width outside 1 to 32 and by `SE.EXTEND64`
exactly for a width outside 1 to 64, with the width, and by nothing else (rule R254). -/
def Obligations.InvalidBitWidthExactly : Prop :=
  ∀ (i : Instr) (s : State) (width : Int),
    AnswersError i s (.invalidBitWidth width) ↔
      ((width < 1 ∨ 32 < width) ∧ ∃ ignored value, i = .seExtend32 ignored value width) ∨
      ((width < 1 ∨ 64 < width) ∧ ∃ value, i = .seExtend64 value width)

/-- `DivisionByZero` is answered by `ALU.SDIV` and `ALU.UDIV` exactly when operand B is zero, with both
operands, and by nothing else, 0 divided by 0 included (rule R255). -/
def Obligations.DivisionByZeroExactly : Prop :=
  ∀ (i : Instr) (s : State) (a b : Word),
    AnswersError i s (.divisionByZero a b) ↔
      b = 0#64 ∧ (i = .aluSdiv a b ∨ i = .aluUdiv a b)

/-! ALU -/

/-- `ALU.ADD` completes with the sum modulo `2^64` and its four flags, as the pseudocode of rule R165 gives
them. -/
def Obligations.AddAnswersSumAndFlags : Prop :=
  ∀ (a b : Word) (s : State),
    encode (.aluAdd a b) = mkFrame 0x40 a b ∧
    ∃ o, AnswersOutcome (.aluAdd a b) s o ∧
    o.result.toNat = (a.toNat + b.toNat) % 2 ^ 64 ∧
    o.negative = o.result.getLsbD 63 ∧ (o.zero = true ↔ o.result = 0#64) ∧
    (o.carry = true ↔ 2 ^ 64 ≤ a.toNat + b.toNat) ∧
    (o.overflow = true ↔
      a.getLsbD 63 = b.getLsbD 63 ∧ o.result.getLsbD 63 ≠ a.getLsbD 63) ∧
    o.unknown = false

/-- `ALU.SUB` completes with the difference modulo `2^64` and its four flags: carry is no borrow, zero is
equality of the operands (rule R166). -/
def Obligations.SubAnswersDifferenceAndFlags : Prop :=
  ∀ (a b : Word) (s : State),
    encode (.aluSub a b) = mkFrame 0x41 a b ∧
    ∃ o, AnswersOutcome (.aluSub a b) s o ∧
    o.result = bv64 ((a.toNat : Int) - b.toNat) ∧ o.result = bv64 (a.toInt - b.toInt) ∧
    o.negative = o.result.getLsbD 63 ∧ (o.zero = true ↔ o.result = 0#64) ∧ (o.zero = true ↔ a = b) ∧
    (o.carry = true ↔ 2 ^ 64 ≤ a.toNat + (~~~b).toNat + 1) ∧
    (o.carry = true ↔ b.toNat ≤ a.toNat) ∧
    (o.overflow = true ↔
      a.getLsbD 63 ≠ b.getLsbD 63 ∧ o.result.getLsbD 63 ≠ a.getLsbD 63) ∧
    o.unknown = false

/-- The overflow flag is set exactly when the signed sum or difference is outside 64 bits, with the case
`B = MIN64` of SUB, and never by any other tag (rule R164). -/
def Obligations.OverflowIsUnrepresentableResult : Prop :=
  ∀ (i : Instr) (s : State) (o : AluOutcome), AnswersOutcome i s o →
    (o.overflow = true ↔ ∃ a b : Word,
      (i = .aluAdd a b ∧ (a.toInt + b.toInt < -2 ^ 63 ∨ 2 ^ 63 ≤ a.toInt + b.toInt)) ∨
      (i = .aluSub a b ∧ (a.toInt - b.toInt < -2 ^ 63 ∨ 2 ^ 63 ≤ a.toInt - b.toInt)))

/-- The carry flag is set exactly when the unsigned sum leaves 64 bits (ADD) or there is no unsigned borrow
(SUB), and never by any other tag (rule R163). -/
def Obligations.CarryIsUnsignedCarryOrNoBorrow : Prop :=
  ∀ (i : Instr) (s : State) (o : AluOutcome), AnswersOutcome i s o →
    (o.carry = true ↔ ∃ a b : Word,
      (i = .aluAdd a b ∧ 2 ^ 64 ≤ a.toNat + b.toNat) ∨ (i = .aluSub a b ∧ b.toNat ≤ a.toNat))

/-- The negative and zero flags follow the result for every tag but IDLE and UNKNOWN, whose result is 0 with
both flags 0 (rules R161, R162). -/
def Obligations.NegativeAndZeroFollowResult : Prop :=
  ∀ (i : Instr) (s : State) (o : AluOutcome), AnswersOutcome i s o →
    (((∃ a b, i = .aluIdle a b) ∨ ∃ c a b, i = .aluUnknown c a b) ∧
      o.result = 0#64 ∧ o.negative = false ∧ o.zero = false) ∨
    ((¬ ∃ a b, i = .aluIdle a b) ∧ (¬ ∃ c a b, i = .aluUnknown c a b) ∧
      o.negative = o.result.getLsbD 63 ∧ (o.zero = true ↔ o.result = 0#64))

/-- After a SUB the flags encode the comparisons of the operands (end of rule R166, derived there). -/
def Obligations.SubFlagsCompareOperands : Prop :=
  ∀ (a b : Word) (s : State) (o : AluOutcome), AnswersOutcome (.aluSub a b) s o →
    (o.zero = true ↔ a = b) ∧ (o.carry = true ↔ b.toNat ≤ a.toNat) ∧
    (o.negative ≠ o.overflow ↔ a.toInt < b.toInt)

/-- SUB in terms of ADD, results only (rule R167, derived there), and MOV and PASS_A in terms of each other
and of ADD (rule R190, derived there; MOV under `MOV_SRC` = B, log 6). -/
def Obligations.AluCommandsInTermsOfEachOther : Prop :=
  ∀ (a b : Word) (s : State) (sub neg addNot one : AluOutcome),
    AnswersOutcome (.aluSub a b) s sub → AnswersOutcome (.aluAdd a (bv64 (-b.toInt))) s neg →
    AnswersOutcome (.aluAdd a (~~~b)) s addNot → AnswersOutcome (.aluAdd addNot.result 1) s one →
      sub.result = neg.result ∧ sub.result = one.result ∧
      exec (.aluMov a b) s = exec (.aluPassA b a) s ∧
      exec (.aluPassA a b) s = exec (.aluOrr a 0) s ∧
      exec (.aluPassA a b) s = exec (.aluAdd a 0) s

/-- AND, ORR and EOR complete with the bitwise result, bit by bit, and plain flags (rules R180, R181,
R182). -/
def Obligations.LogicalCommandsActBitwise : Prop :=
  ∀ (a b : Word) (s : State),
    encode (.aluAnd a b) = mkFrame 0x42 a b ∧
    encode (.aluOrr a b) = mkFrame 0x43 a b ∧
    encode (.aluEor a b) = mkFrame 0x44 a b ∧
    ∃ x y z,
    AnswersOutcome (.aluAnd a b) s x ∧ AnswersOutcome (.aluOrr a b) s y ∧
    AnswersOutcome (.aluEor a b) s z ∧ x.PlainFlags ∧ y.PlainFlags ∧ z.PlainFlags ∧
    ∀ k < 64, x.result.getLsbD k = (a.getLsbD k && b.getLsbD k) ∧
      y.result.getLsbD k = (a.getLsbD k || b.getLsbD k) ∧
      z.result.getLsbD k = (a.getLsbD k ^^ b.getLsbD k)

/-- LSL, LSR and ASR complete with `A` shifted by the low six bits of `B`, bit by bit: zeros enter a logical
shift, copies of bit 63 the arithmetic one; plain flags (rules R184, R185, R186, R187). -/
def Obligations.ShiftsMoveBitsByLowSixBits : Prop :=
  ∀ (a b : Word) (s : State),
    encode (.aluLsl a b) = mkFrame 0x45 a b ∧
    encode (.aluLsr a b) = mkFrame 0x46 a b ∧
    encode (.aluAsr a b) = mkFrame 0x47 a b ∧
    ∃ x y z,
    AnswersOutcome (.aluLsl a b) s x ∧ AnswersOutcome (.aluLsr a b) s y ∧
    AnswersOutcome (.aluAsr a b) s z ∧ x.PlainFlags ∧ y.PlainFlags ∧ z.PlainFlags ∧
    ∀ k < 64,
      (x.result.getLsbD k =
        if k < b.toNat % 64 then false else a.getLsbD (k - b.toNat % 64)) ∧
      (y.result.getLsbD k =
        if k + b.toNat % 64 ≤ 63 then a.getLsbD (k + b.toNat % 64) else false) ∧
      (z.result.getLsbD k =
        if k + b.toNat % 64 ≤ 63 then a.getLsbD (k + b.toNat % 64) else a.getLsbD 63)

/-- The shifts as arithmetic (rule R168, derived there): LSL multiplies modulo `2^64`, LSR divides the
unsigned value, ASR divides the signed value rounding toward minus infinity. -/
def Obligations.ShiftsAreArithmetic : Prop :=
  ∀ (a b : Word) (s : State), ∃ x y z,
    AnswersOutcome (.aluLsl a b) s x ∧ AnswersOutcome (.aluLsr a b) s y ∧
    AnswersOutcome (.aluAsr a b) s z ∧
    x.result.toNat = a.toNat * 2 ^ (b.toNat % 64) % 2 ^ 64 ∧
    y.result.toNat = a.toNat / 2 ^ (b.toNat % 64) ∧
    z.result.toInt * 2 ^ (b.toNat % 64) ≤ a.toInt ∧
    a.toInt < (z.result.toInt + 1) * 2 ^ (b.toNat % 64)

/-- `PASS_A` completes with operand A, whatever operand B is, and plain flags (rule R188). -/
def Obligations.PassAAnswersOperandA : Prop :=
  ∀ (a b : Word) (s : State),
    encode (.aluPassA a b) = mkFrame 0x49 a b ∧
    ∃ o, AnswersOutcome (.aluPassA a b) s o ∧ o.result = a ∧ o.PlainFlags

/-- `MOV` completes with operand B, whatever operand A is, and plain flags (rule R189). Which operand it
returns is decision D10 of the spec, the parameter `MOV_SRC` = B (log 6). -/
def Obligations.MovAnswersOperandB : Prop :=
  ∀ (a b : Word) (s : State),
    encode (.aluMov a b) = mkFrame 0x48 a b ∧
    ∃ o, AnswersOutcome (.aluMov a b) s o ∧ o.result = b ∧ o.PlainFlags

/-- MUL, SMULH and UMULH complete with the low half, the high half of the signed and the high half of the
unsigned product, and plain flags (rules R200, R201, R202). -/
def Obligations.MultipliesAnswerProductHalves : Prop :=
  ∀ (a b : Word) (s : State),
    encode (.aluMul a b) = mkFrame 0x4A a b ∧
    encode (.aluSmulh a b) = mkFrame 0x4B a b ∧
    encode (.aluUmulh a b) = mkFrame 0x4C a b ∧
    ∃ x y z,
    AnswersOutcome (.aluMul a b) s x ∧ AnswersOutcome (.aluSmulh a b) s y ∧
    AnswersOutcome (.aluUmulh a b) s z ∧ x.PlainFlags ∧ y.PlainFlags ∧ z.PlainFlags ∧
    x.result.toNat = a.toNat * b.toNat % 2 ^ 64 ∧
    y.result.toInt * 2 ^ 64 ≤ a.toInt * b.toInt ∧
    a.toInt * b.toInt < (y.result.toInt + 1) * 2 ^ 64 ∧
    z.result.toNat = a.toNat * b.toNat / 2 ^ 64

/-- The two halves make the full 128-bit product, signed and unsigned (rule R209, derived there). -/
def Obligations.ProductHalvesMakeTheProduct : Prop :=
  ∀ (a b : Word) (s : State) (low high uhigh : AluOutcome),
    AnswersOutcome (.aluMul a b) s low → AnswersOutcome (.aluSmulh a b) s high →
    AnswersOutcome (.aluUmulh a b) s uhigh →
      uhigh.result.toNat * 2 ^ 64 + low.result.toNat = a.toNat * b.toNat ∧
      high.result.toInt * 2 ^ 64 + low.result.toNat = a.toInt * b.toInt

/-- `UDIV` completes with the floor of the unsigned quotient and plain flags for every divisor but 0, for which
it answers `DivisionByZero` and no outcome (rule R204). -/
def Obligations.UdivAnswersUnsignedQuotient : Prop :=
  ∀ (a b : Word) (s : State),
    encode (.aluUdiv a b) = mkFrame 0x4E a b ∧
    (b ≠ 0#64 → ∃ o, AnswersOutcome (.aluUdiv a b) s o ∧ o.result.toNat = a.toNat / b.toNat ∧
      o.PlainFlags) ∧
    (b = 0#64 → AnswersError (.aluUdiv a b) s (.divisionByZero a b))

/-- `SDIV` completes with the signed quotient rounded toward zero and plain flags for every divisor but 0: the
remainder is smaller than the divisor and has the sign of the dividend (rules R203, R209); `MIN64 / -1` gives
`MIN64` without overflow. The rounding and that corner are decision D11 of the spec, the parameter
`SDIV_ROUND` (log 7); an exact quotient does not depend on it. -/
def Obligations.SdivAnswersSignedQuotient : Prop :=
  ∀ (a b : Word) (s : State),
    encode (.aluSdiv a b) = mkFrame 0x4D a b ∧
    (b ≠ 0#64 → ∃ o, AnswersOutcome (.aluSdiv a b) s o ∧ o.PlainFlags ∧
      (a = min64 ∧ b.toInt = -1 → o.result = min64) ∧
      (¬(a = min64 ∧ b.toInt = -1) → ∃ r : Int,
        a.toInt = o.result.toInt * b.toInt + r ∧ |r| < |b.toInt| ∧
        (r = 0 ∨ (0 < r ∧ 0 < a.toInt) ∨ (r < 0 ∧ a.toInt < 0)))) ∧
    (b = 0#64 → AnswersError (.aluSdiv a b) s (.divisionByZero a b))

/-- IDLE completes with result 0 and every flag 0, the zero flag too, whatever the operands (rule R205). -/
def Obligations.IdleAnswersZeroWithoutFlags : Prop :=
  ∀ (a b : Word) (s : State),
    encode (.aluIdle a b) = mkFrame 0x4F a b ∧
    ∃ o, AnswersOutcome (.aluIdle a b) s o ∧ o.result = 0#64 ∧
    o.negative = false ∧ o.zero = false ∧ o.carry = false ∧ o.overflow = false ∧ o.unknown = false

/-- UNKNOWN completes likewise with the unknown marker set, no error, for the canonical code and the fifteen
reserved ALU codes alike (rules R92, R206; decisions D5 and D29 of the spec). -/
def Obligations.UnknownAnswersMarker : Prop :=
  ∀ (code : BitVec 4) (a b : Word) (s : State),
    encode (.aluUnknown code a b) = mkFrame (0x5#4 ++ code) a b ∧
    ∃ o, AnswersOutcome (.aluUnknown code a b) s o ∧
    o.result = 0#64 ∧ o.negative = false ∧ o.zero = false ∧ o.carry = false ∧
    o.overflow = false ∧ o.unknown = true

/-- An ALU or sign-extender command (unit code 2 or 3) answers the same in every state and changes nothing
else: these units are pure (rules R160, R230). -/
def Obligations.AluAndSignExtenderArePure : Prop :=
  ∀ i : Instr, (encode i).cmd.extractLsb' 5 3 = 2#3 ∨ (encode i).cmd.extractLsb' 5 3 = 3#3 →
    ∃ r : Response, ∀ s : State, exec i s = .next (s.answered r)

/-! Sign extender -/

/-- `SE.EXTEND64`: for a width 1 to 64 it answers the low bits of the value with every higher bit a copy of
the top one of them, and no flags; for any other width `InvalidBitWidth` (rule R232). -/
def Obligations.Extend64CopiesTheSignBit : Prop :=
  ∀ (value : Word) (width : Int) (s : State),
    encode (.seExtend64 value width) = mkFrame 0x61 value (bv64 width) ∧
    (∀ n : Nat, width = n → 1 ≤ n → n ≤ 64 →
      ∃ r, exec (.seExtend64 value width) s = .next (s.answered (.result r)) ∧
        ∀ k < 64, r.getLsbD k = if k < n then value.getLsbD k else value.getLsbD (n - 1)) ∧
    (width < 1 ∨ 64 < width → AnswersError (.seExtend64 value width) s (.invalidBitWidth width))

/-- `SE.EXTEND32`: the same for a 32-bit value and widths 1 to 32, whatever the ignored half of `P` holds
(rule R231); that width 32 copies bit 31 is decision D12 of the spec. -/
def Obligations.Extend32CopiesTheSignBit : Prop :=
  ∀ (ignored value : BitVec 32) (width : Int) (s : State),
    encode (.seExtend32 ignored value width) = mkFrame 0x60 (ignored ++ value) (bv64 width) ∧
    (∀ n : Nat, width = n → 1 ≤ n → n ≤ 32 →
      ∃ r, exec (.seExtend32 ignored value width) s = .next (s.answered (.result r)) ∧
        ∀ k < 64, r.getLsbD k = if k < n then value.getLsbD k else value.getLsbD (n - 1)) ∧
    (width < 1 ∨ 32 < width →
      AnswersError (.seExtend32 ignored value width) s (.invalidBitWidth width))

/-- The wide form computes the source's algorithm (rule R233): with the sign bit set, all higher bits set; with
it clear, all higher bits cleared; and the signed value of the low bits is preserved. -/
def Obligations.ExtensionIsTheSourceAlgorithm : Prop :=
  ∀ (value : Word) (n : Nat) (s : State) (r : Word), 1 ≤ n → n ≤ 64 →
    exec (.seExtend64 value n) s = .next (s.answered (.result r)) →
      r = (if value.getLsbD (n - 1) then value ||| (BitVec.allOnes 64 <<< n)
           else value &&& ~~~(BitVec.allOnes 64 <<< n)) ∧
      r.toInt = (value.setWidth n).toInt ∧
      -2 ^ (n - 1) ≤ r.toInt ∧ r.toInt < 2 ^ (n - 1)

/-- Extending again, at the same or a greater width, changes nothing, and the two forms agree where both are
legal (rules R232, R234, derived there). -/
def Obligations.ExtensionIsIdempotentAndFormsAgree : Prop :=
  ∀ (value : Word) (ignored : BitVec 32) (n m : Nat) (s : State) (r : Word),
    1 ≤ n → n ≤ m → m ≤ 64 →
    exec (.seExtend64 value n) s = .next (s.answered (.result r)) →
      exec (.seExtend64 r m) s = .next (s.answered (.result r)) ∧
      (n ≤ 32 → exec (.seExtend32 ignored (value.extractLsb' 0 32) n) s =
        .next (s.answered (.result r)))

/-! Responses on the wire -/

/-- The response frame holds `err`, `unk`, `N`, `Z`, `C`, `V` and `R` at the bits rule R89 gives them: an ALU
outcome's own, a result without flags, a count for a snapshot, and the error code for an error, of which no
other field is valid; a snapshot is followed by its entries, key above word (rule R91). -/
def Obligations.ResponseFramesFollowTheLayout : Prop :=
  (∀ o : AluOutcome, (Response.alu o).frame.extractLsb' 69 4 = 0#4 ∧
    (Response.alu o).frame.getLsbD 68 = o.unknown ∧ (Response.alu o).frame.getLsbD 67 = o.negative ∧
    (Response.alu o).frame.getLsbD 66 = o.zero ∧ (Response.alu o).frame.getLsbD 65 = o.carry ∧
    (Response.alu o).frame.getLsbD 64 = o.overflow ∧
    (Response.alu o).frame.extractLsb' 0 64 = o.result) ∧
  (∀ r : Response, r.frame.extractLsb' 69 4 = r.err) ∧
  (∀ w : Word, (Response.result w).frame.toNat = w.toNat) ∧
  (Response.done.frame = 0#73) ∧
  ∀ es : List (Nat × Word), Memory.wf es →
    (Response.snapshot es).frame.extractLsb' 0 64 = BitVec.ofNat 64 es.length ∧
    (Response.snapshot es).entryFrames.map (fun e => ((e.extractLsb' 64 64).toNat, e.extractLsb' 0 64))
      = es

/-! The laws of the memory store -/

/-- The laws (a) to (h) of rule R144 hold at every state whose memory has its canonical form; (e) to (h) are
derived there, and (h) lists words 0 by decision D22 of the spec (log 12). -/
def Obligations.MemoryStoreKeepsItsLaws : Prop :=
  ∀ s : State, s.mem.wf → MemoryStoreLaws s
end

