-- ==== Sys2Proof/Laws/Decode.lean ====
section
/-! SUPPORT. The fields of a frame, once: a frame is made of its three fields and gives them back, and an
integer operand that fits its field is read back from it. -/

namespace Sys2Proof

@[simp] theorem mkFrame_cmd (cmd : BitVec 8) (p q : Word) : (mkFrame cmd p q).cmd = cmd := by
  refine BitVec.eq_of_getLsbD_eq fun i hi => ?_
  have h₁ : ¬128 + i < 64 := by omega
  have h₂ : ¬128 + i - 64 < 64 := by omega
  have h₃ : 128 + i - 64 - 64 = i := by omega
  simp only [mkFrame, Frame.cmd, BitVec.getLsbD_extractLsb', BitVec.getLsbD_append]
  simp [*]

@[simp] theorem mkFrame_p (cmd : BitVec 8) (p q : Word) : (mkFrame cmd p q).p = p := by
  refine BitVec.eq_of_getLsbD_eq fun i hi => ?_
  have h₁ : ¬64 + i < 64 := by omega
  have h₂ : 64 + i - 64 < 64 := by omega
  simp only [mkFrame, Frame.p, BitVec.getLsbD_extractLsb', BitVec.getLsbD_append]
  simp [*]

@[simp] theorem mkFrame_q (cmd : BitVec 8) (p q : Word) : (mkFrame cmd p q).q = q := by
  refine BitVec.eq_of_getLsbD_eq fun i hi => ?_
  simp only [mkFrame, Frame.q, BitVec.getLsbD_extractLsb', BitVec.getLsbD_append]
  simp [*]

/-- A frame is made of its three fields. -/
theorem mkFrame_fields (f : Frame) : mkFrame f.cmd f.p f.q = f := by
  refine BitVec.eq_of_getLsbD_eq fun i hi => ?_
  simp only [mkFrame, Frame.cmd, Frame.p, Frame.q, BitVec.getLsbD_extractLsb', BitVec.getLsbD_append]
  by_cases h₁ : i < 64
  · simp [h₁]
  · by_cases h₂ : i - 64 < 64
    · have h₃ : 64 + (i - 64) = i := by omega
      simp [h₁, h₂, h₃]
    · have h₃ : 128 + (i - 64 - 64) = i := by omega
      have h₄ : i - 64 - 64 < 8 := by omega
      simp [h₁, h₂, h₃, h₄]

/-- An integer that fits the field is read back from it (rule R83). -/
theorem bv64_toInt_of_fits {n : Int} (h : fitsSigned64 n = true) : (bv64 n).toInt = n := by
  simp only [fitsSigned64, decide_eq_true_eq] at h
  rw [bv64, BitVec.toInt_ofInt, Int.bmod_eq_of_le] <;> omega

@[simp] theorem bv64_toInt (w : Word) : bv64 w.toInt = w := by
  simp [bv64]

/-- The integer read from a field fits it. -/
theorem fitsSigned64_toInt (w : Word) : fitsSigned64 w.toInt = true := by
  have h₁ := BitVec.toInt_lt (x := w)
  have h₂ := BitVec.le_toInt (x := w)
  simp only [fitsSigned64, decide_eq_true_eq]
  omega

/-- The high and low halves of `P` that format VW32 uses (rule R82). -/
theorem halves_append (high low : BitVec 32) :
    (high ++ low : BitVec 64).extractLsb' 32 32 = high ∧
      (high ++ low : BitVec 64).extractLsb' 0 32 = low := by
  constructor <;> refine BitVec.eq_of_getLsbD_eq fun i hi => ?_
  · rw [BitVec.getLsbD_extractLsb', BitVec.getLsbD_append]
    have h : ¬32 + i < 32 := by omega
    simp [hi, h]
  · rw [BitVec.getLsbD_extractLsb', BitVec.getLsbD_append]
    simp [hi]

theorem append_halves (p : Word) :
    (p.extractLsb' 32 32 ++ p.extractLsb' 0 32 : BitVec 64) = p := by
  refine BitVec.eq_of_getLsbD_eq fun i hi => ?_
  rw [BitVec.getLsbD_append]
  by_cases h : i < 32
  · simp [h]
  · have h₁ : 32 + (i - 32) = i := by omega
    have h₂ : i - 32 < 32 := by omega
    simp [h, h₁, h₂]

end Sys2Proof
end

