-- ==== Sys2Proof/Laws/Memory.lean ====
section
/-! SUPPORT. The laws of the memory map: read after write, the frame of a write, presence, and that every
memory operation keeps the canonical form. -/

namespace Sys2Proof.Machine

@[simp] theorem Memory.read_nil (a : Nat) : Memory.read [] a = 0#64 := rfl

@[simp] theorem Memory.present_nil (a : Nat) : Memory.present [] a = false := rfl

@[simp] theorem Memory.read_write_same (m : Memory) (a : Nat) (v : Word) :
    Memory.read (Memory.write m a v) a = v := by
  induction m with
  | nil => simp [Memory.write, Memory.read]
  | cons e rest ih =>
    obtain ⟨k, w⟩ := e
    simp only [Memory.write]
    split
    · simp [Memory.read]
    · split
      · simp [Memory.read]
      · rename_i h
        simp [Memory.read, Ne.symm h, ih]

theorem Memory.read_write_other (m : Memory) {a b : Nat} (v : Word) (h : b ≠ a) :
    Memory.read (Memory.write m a v) b = Memory.read m b := by
  induction m with
  | nil => simp [Memory.write, Memory.read, Ne.symm h]
  | cons e rest ih =>
    obtain ⟨k, w⟩ := e
    simp only [Memory.write]
    split
    · simp [Memory.read, Ne.symm h]
    · split
      · rename_i hk
        subst hk
        simp [Memory.read, Ne.symm h]
      · simp [Memory.read, ih]

theorem Memory.present_write (m : Memory) (a b : Nat) (v : Word) :
    Memory.present (Memory.write m a v) b = (a == b || Memory.present m b) := by
  induction m with
  | nil => simp [Memory.write, Memory.present]
  | cons e rest ih =>
    obtain ⟨k, w⟩ := e
    simp only [Memory.write]
    split
    · simp [Memory.present]
    · split
      · rename_i hk
        subst hk
        simp [Memory.present]
      · simp only [Memory.present, ih]
        cases (k == b) <;> cases (a == b) <;> simp

theorem Memory.present_iff (m : Memory) (a : Nat) :
    Memory.present m a = true ↔ ∃ w, (a, w) ∈ m := by
  induction m with
  | nil => simp
  | cons e rest ih =>
    obtain ⟨k, w⟩ := e
    simp only [Memory.present, Bool.or_eq_true, beq_iff_eq, ih, List.mem_cons, Prod.mk.injEq]
    constructor
    · rintro (rfl | ⟨w', h⟩)
      · exact ⟨w, .inl ⟨rfl, rfl⟩⟩
      · exact ⟨w', .inr h⟩
    · rintro ⟨w', ⟨rfl, -⟩ | h⟩
      · exact .inl rfl
      · exact .inr ⟨w', h⟩

theorem Memory.mem_write (m : Memory) (a : Nat) (v : Word) (e : Nat × Word)
    (h : e ∈ Memory.write m a v) : e = (a, v) ∨ e ∈ m := by
  induction m with
  | nil => simpa [Memory.write] using h
  | cons e' rest ih =>
    obtain ⟨k, w⟩ := e'
    simp only [Memory.write] at h
    split at h
    · simpa using h
    · split at h
      · rcases List.mem_cons.1 h with h | h
        · exact .inl h
        · exact .inr (List.mem_cons_of_mem _ h)
      · rcases List.mem_cons.1 h with h | h
        · exact .inr (h ▸ List.mem_cons_self)
        · exact (ih h).imp_right (List.mem_cons_of_mem _)

/-- A write at a legal key keeps the canonical form. -/
theorem Memory.wf_write {m : Memory} (a : Nat) (v : Word) (ha : a < Config.keyBound)
    (h : Memory.wf m) : Memory.wf (Memory.write m a v) := by
  refine ⟨?_, fun e he => ?_⟩
  · induction m with
    | nil => simp [Memory.write]
    | cons e rest ih =>
      obtain ⟨k, w⟩ := e
      obtain ⟨hp, hb⟩ := h
      obtain ⟨hk, hr⟩ := List.pairwise_cons.1 hp
      simp only [Memory.write]
      split
      · rename_i hlt
        refine List.pairwise_cons.2 ⟨fun e he => ?_, hp⟩
        rcases List.mem_cons.1 he with rfl | he
        · exact hlt
        · exact Nat.lt_trans hlt (hk e he)
      · split
        · rename_i heq
          subst heq
          exact List.pairwise_cons.2 ⟨hk, hr⟩
        · refine List.pairwise_cons.2 ⟨fun e he => ?_, ih ⟨hr, fun e he => hb e (List.mem_cons_of_mem _ he)⟩⟩
          rcases Memory.mem_write rest a v e he with rfl | he
          · simp only; omega
          · exact hk e he
  · rcases Memory.mem_write m a v e he with rfl | he
    · exact ha
    · exact h.2 e he

/-- The empty map has the canonical form. -/
theorem Memory.wf_nil : Memory.wf [] := by decide

/-- In canonical form an entry holds the word that a read of its key gives. -/
theorem Memory.read_of_mem {m : Memory} (h : m.wf) {a : Nat} {w : Word} (he : (a, w) ∈ m) :
    Memory.read m a = w := by
  induction m with
  | nil => simp at he
  | cons e rest ih =>
    obtain ⟨k, w'⟩ := e
    obtain ⟨hk, hr⟩ := List.pairwise_cons.1 h.1
    rcases List.mem_cons.1 he with he | he
    · cases he
      simp [Memory.read]
    · have := hk _ he
      simp only at this
      have hne : k ≠ a := by omega
      simp only [Memory.read, hne, if_false]
      exact ih ⟨hr, fun e he => h.2 e (List.mem_cons_of_mem _ he)⟩ he

/-- The last of two writes to a key wins, and every other key reads as before both. -/
theorem Memory.read_write_write (m : Memory) (a b : Nat) (v w : Word) :
    Memory.read (Memory.write (Memory.write m a v) a w) b = if b = a then w else Memory.read m b := by
  by_cases h : b = a
  · simp [h]
  · rw [Memory.read_write_other _ _ h, Memory.read_write_other _ _ h, if_neg h]

/-- After a clear every key reads 0. -/
theorem Memory.read_clear (s : State) (a : Nat) : s.clearMem.mem.read a = 0#64 := rfl

/-- The snapshot of a canonical memory holds a pair exactly where the key is present with that word. -/
theorem Memory.mem_snapshot_iff {m : Memory} (h : m.wf) (a : Nat) (w : Word) :
    (a, w) ∈ m.snapshot ↔ m.present a = true ∧ m.read a = w := by
  constructor
  · exact fun he => ⟨(Memory.present_iff m a).2 ⟨w, he⟩, Memory.read_of_mem h he⟩
  · rintro ⟨hp, hr⟩
    obtain ⟨w', he⟩ := (Memory.present_iff m a).1 hp
    rw [← hr, Memory.read_of_mem h he]
    exact he

/-- The reset memory has the canonical form. -/
theorem Memory.wf_reset : State.reset.mem.wf := Memory.wf_nil

end Sys2Proof.Machine
end

