-- ==== Sys2Proof/Laws/State.lean ====
section
/-! SUPPORT. One lemma per field per update of the state, so that no proof unfolds a record update. -/

namespace Sys2Proof.Machine

@[simp] theorem State.respond_slot (s : State) (r : Response) : (s.respond r).slot = s.slot := rfl
@[simp] theorem State.respond_mem (s : State) (r : Response) : (s.respond r).mem = s.mem := rfl
@[simp] theorem State.respond_inputs (s : State) (r : Response) : (s.respond r).inputs = s.inputs := rfl
@[simp] theorem State.respond_responses (s : State) (r : Response) :
    (s.respond r).responses = r :: s.responses := rfl

@[simp] theorem State.writeMem_slot (s : State) (k : Nat) (v : Word) :
    (s.writeMem k v).slot = s.slot := rfl
@[simp] theorem State.writeMem_mem (s : State) (k : Nat) (v : Word) :
    (s.writeMem k v).mem = s.mem.write k v := rfl
@[simp] theorem State.writeMem_inputs (s : State) (k : Nat) (v : Word) :
    (s.writeMem k v).inputs = s.inputs := rfl
@[simp] theorem State.writeMem_responses (s : State) (k : Nat) (v : Word) :
    (s.writeMem k v).responses = s.responses := rfl

@[simp] theorem State.clearMem_slot (s : State) : s.clearMem.slot = s.slot := rfl
@[simp] theorem State.clearMem_mem (s : State) : s.clearMem.mem = [] := rfl
@[simp] theorem State.clearMem_inputs (s : State) : s.clearMem.inputs = s.inputs := rfl
@[simp] theorem State.clearMem_responses (s : State) : s.clearMem.responses = s.responses := rfl

@[simp] theorem State.clearRegs_slot (s : State) :
    s.clearRegs.slot = Vector.replicate 32 0#64 := rfl
@[simp] theorem State.clearRegs_mem (s : State) : s.clearRegs.mem = s.mem := rfl
@[simp] theorem State.clearRegs_inputs (s : State) : s.clearRegs.inputs = s.inputs := rfl
@[simp] theorem State.clearRegs_responses (s : State) : s.clearRegs.responses = s.responses := rfl

@[simp] theorem State.resetBlock_slot (s : State) :
    s.resetBlock.slot = Vector.replicate 32 0#64 := rfl
@[simp] theorem State.resetBlock_mem (s : State) : s.resetBlock.mem = [] := rfl
@[simp] theorem State.resetBlock_inputs (s : State) : s.resetBlock.inputs = s.inputs := rfl
@[simp] theorem State.resetBlock_responses (s : State) : s.resetBlock.responses = s.responses := rfl

@[simp] theorem State.writeReg_slot (s : State) (i : Fin 32) (v : Word) :
    (s.writeReg i v).slot = s.slot.set i v := rfl
@[simp] theorem State.writeReg_mem (s : State) (i : Fin 32) (v : Word) :
    (s.writeReg i v).mem = s.mem := rfl
@[simp] theorem State.writeReg_inputs (s : State) (i : Fin 32) (v : Word) :
    (s.writeReg i v).inputs = s.inputs := rfl
@[simp] theorem State.writeReg_responses (s : State) (i : Fin 32) (v : Word) :
    (s.writeReg i v).responses = s.responses := rfl

@[simp] theorem State.reset_slot : State.reset.slot = Vector.replicate 32 0#64 := rfl
@[simp] theorem State.reset_mem : State.reset.mem = [] := rfl
@[simp] theorem State.reset_inputs : State.reset.inputs = [] := rfl
@[simp] theorem State.reset_responses : State.reset.responses = [] := rfl

end Sys2Proof.Machine
end

