-- ==== Sys2Proof/Laws/Ops.lean ====
section
/-! SUPPORT. What each shared operation can do, said once. -/

namespace Sys2Proof.Machine

/-- A completed command answers exactly its response. -/
@[simp] theorem complete_eq (s : State) (r : Response) : complete s r = .next (s.respond r) := rfl

/-- Raising an error answers it with the command's frame and changes nothing of the block. -/
@[simp] theorem raise_eq (kind : ErrorKind) (i : Instr) (s : State) :
    raise kind i s = .next (s.respond (.error kind (encode i))) := rfl

@[simp] theorem guarded_ok {α : Type} (i : Instr) (s : State) (x : α) (go : α → Result) :
    guarded i s (.ok x) go = go x := rfl

@[simp] theorem guarded_error {α : Type} (i : Instr) (s : State) (kind : ErrorKind)
    (go : α → Result) :
    guarded i s (.error kind) go = .next (s.respond (.error kind (encode i))) := rfl

/-- Everything a guarded command can do: its check failed and the error is answered, or it went on. -/
theorem guarded_cases {α : Type} {i : Instr} {s t : State} {check : Except ErrorKind α}
    {go : α → Result} (h : guarded i s check go = .next t) :
    (∃ kind, check = .error kind ∧ t = s.respond (.error kind (encode i))) ∨
      ∃ x, check = .ok x ∧ go x = .next t := by
  cases check with
  | error kind =>
    left
    refine ⟨kind, rfl, ?_⟩
    simpa using h.symm
  | ok x => exact .inr ⟨x, rfl, h⟩

/-- The register-index check, whole. -/
theorem registerIndex_cases (index : Int) (access : RegisterAccess) :
    (∃ i : Fin 32, (i.val : Int) = index ∧ registerIndex index access = .ok i) ∨
      (¬(0 ≤ index ∧ index ≤ 31) ∧
        registerIndex index access = .error (.invalidRegisterIndex index access)) := by
  by_cases h : 0 ≤ index ∧ index ≤ 31
  · exact .inl ⟨⟨index.toNat, by omega⟩, by simp only; omega, by simp [registerIndex, h]⟩
  · exact .inr ⟨h, by simp [registerIndex, h]⟩

theorem registerIndex_fin (i : Fin 32) (access : RegisterAccess) :
    registerIndex i.val access = .ok i := by
  have h : (0 : Int) ≤ i.val ∧ (i.val : Int) ≤ 31 := by omega
  simp [registerIndex, h]

/-- A 64-bit value is negative as a signed number exactly when its bit 63 is set. -/
theorem toInt_neg_iff (a : Word) : a.toInt < 0 ↔ a.msb = true := by
  rw [BitVec.msb_eq_toInt]
  simp

/-- The memory-key check, whole. -/
theorem memoryKey_cases (a : Word) :
    (a.msb = false ∧ a.toNat < 2 ^ 63 ∧ memoryKey a = .ok a.toNat) ∨
      (a.msb = true ∧ memoryKey a = .error (.negativeAddress a.toInt)) := by
  cases h : a.msb
  · have h' : ¬ a.toInt < 0 := by simp [toInt_neg_iff, h]
    refine .inl ⟨rfl, ?_, by simp [memoryKey, h']⟩
    have := BitVec.msb_eq_decide a
    rw [h] at this
    simpa using this.symm
  · have h' : a.toInt < 0 := by simp [toInt_neg_iff, h]
    exact .inr ⟨rfl, by simp [memoryKey, h']⟩

/-- The divisor check, whole. -/
theorem divisor_cases (a b : Word) :
    (b ≠ 0#64 ∧ divisor a b = .ok b) ∨
      (b = 0#64 ∧ divisor a b = .error (.divisionByZero a b)) := by
  by_cases h : b = 0#64
  · exact .inr ⟨h, by simp [divisor, h]⟩
  · exact .inl ⟨h, by simp [divisor, h]⟩

/-- The width check, whole. -/
theorem extendWidth_cases (native : Nat) (width : Int) :
    (∃ n : Nat, 1 ≤ n ∧ n ≤ native ∧ (n : Int) = width ∧ extendWidth native width = .ok n) ∨
      (¬(1 ≤ width ∧ width ≤ native) ∧
        extendWidth native width = .error (.invalidBitWidth width)) := by
  by_cases h : 1 ≤ width ∧ width ≤ native
  · exact .inl ⟨width.toNat, by omega, by omega, by omega, by simp [extendWidth, h]⟩
  · exact .inr ⟨h, by simp [extendWidth, h]⟩

/-- A shift amount is the operand modulo 64. -/
theorem shiftAmount_eq (b : Word) : shiftAmount b = b.toNat % 64 := by
  simp [shiftAmount, BitVec.extractLsb'_toNat, Config.shiftAmountBits]

theorem shiftAmount_lt (b : Word) : shiftAmount b < 64 := by
  rw [shiftAmount_eq]
  omega

/-- The architectural read, whole. -/
theorem State.readReg_eq (s : State) (i : Fin 32) :
    s.readReg i = if i.val = 31 then 0#64 else s.slot[i] := rfl

@[simp] theorem State.readReg_respond (s : State) (r : Response) (i : Fin 32) :
    (s.respond r).readReg i = s.readReg i := rfl

/-- The slots after an architectural write. -/
theorem State.slot_writeReg (s : State) (i j : Fin 32) (v : Word) :
    (s.writeReg i v).slot[j] = if j = i then v else s.slot[j] := by
  rw [State.writeReg_slot]
  by_cases h : j = i
  · subst h
    simp
  · have h' : i.val ≠ j.val := fun e => h (Fin.ext e.symm)
    simp [h, h']

/-- The registers after an architectural write. -/
theorem State.readReg_writeReg (s : State) (i j : Fin 32) (v : Word) :
    (s.writeReg i v).readReg j =
      if j.val = 31 then 0#64 else if j = i then v else s.readReg j := by
  rw [State.readReg_eq, State.readReg_eq, State.slot_writeReg]
  split <;> rfl

@[simp] theorem plainOutcome_result (r : Word) : (plainOutcome r).result = r := rfl
@[simp] theorem plainOutcome_negative (r : Word) : (plainOutcome r).negative = r.getLsbD 63 := rfl
@[simp] theorem plainOutcome_zero (r : Word) : (plainOutcome r).zero = (r == 0#64) := rfl
@[simp] theorem plainOutcome_carry (r : Word) : (plainOutcome r).carry = false := rfl
@[simp] theorem plainOutcome_overflow (r : Word) : (plainOutcome r).overflow = false := rfl
@[simp] theorem plainOutcome_unknown (r : Word) : (plainOutcome r).unknown = false := rfl

end Sys2Proof.Machine
end

