-- ==== Sys2Proof/Laws/Exec.lean ====
section
/-! SUPPORT. What performing a command and taking a step can do, said once: later proofs cite these and do
not unfold the meanings. -/

namespace Sys2Proof.Machine

/-- Everything a command can do. It answers one response `r`, and the block is left as it was, or one slot is
written, or every slot cleared, or one key written, or every key removed; each writing case names the command
and the condition on its operands. -/
theorem exec_cases (i : Instr) (s : State) :
    ∃ t r, exec i s = .next (t.respond r) ∧ r.err ≤ 4#4 ∧ (s.mem.wf → r.wf = true) ∧
      ((t = s ∧ (∀ x v, i = .rfWrite x v → ¬(0 ≤ x ∧ x ≤ 31)) ∧
          (∀ a v, i = .memWrite a v → a.msb = true) ∧
          ∀ p q, i ≠ .rfClear p q ∧ i ≠ .memClear p q) ∨
        (∃ (j : Fin 32) (v : Word), i = .rfWrite j.val v ∧ t = s.writeReg j v) ∨
        (∃ p q, i = .rfClear p q ∧ t = s.clearRegs) ∨
        (∃ a v, i = .memWrite a v ∧ a.msb = false ∧ t = s.writeMem a.toNat v) ∨
        ∃ p q, i = .memClear p q ∧ t = s.clearMem) := by
  cases i <;> simp only [exec]
  case rfRead index ignored =>
    rcases registerIndex_cases index .read with ⟨j, _, h⟩ | ⟨_, h⟩ <;> rw [execRfRead, h] <;>
      refine ⟨s, _, rfl, ?_, ?_, .inl ?_⟩ <;> simp [Response.err, Response.wf, ErrorKind.code]
  case rfWrite index value =>
    rcases registerIndex_cases index .write with ⟨j, rfl, h⟩ | ⟨g, h⟩ <;> rw [execRfWrite, h]
    · exact ⟨_, _, rfl, by simp [Response.err], by simp [Response.wf], .inr (.inl ⟨j, _, rfl, rfl⟩)⟩
    · refine ⟨s, _, rfl, ?_, ?_, .inl ?_⟩ <;> simp [Response.err, Response.wf, ErrorKind.code]
      omega
  case rfClear p q =>
    exact ⟨_, _, rfl, by simp [Response.err], by simp [Response.wf],
      .inr (.inr (.inl ⟨_, _, rfl, rfl⟩))⟩
  case memRead address ignored =>
    rcases memoryKey_cases address with ⟨_, _, h⟩ | ⟨_, h⟩ <;> rw [execMemRead, h] <;>
      refine ⟨s, _, rfl, ?_, ?_, .inl ?_⟩ <;> simp [Response.err, Response.wf, ErrorKind.code]
  case memWrite address value =>
    rcases memoryKey_cases address with ⟨g, _, h⟩ | ⟨g, h⟩ <;> rw [execMemWrite, h]
    · exact ⟨_, _, rfl, by simp [Response.err], by simp [Response.wf],
        .inr (.inr (.inr (.inl ⟨_, _, rfl, g, rfl⟩)))⟩
    · refine ⟨s, _, rfl, ?_, ?_, .inl ?_⟩ <;> simp [Response.err, Response.wf, ErrorKind.code, g]
  case memClear p q =>
    exact ⟨_, _, rfl, by simp [Response.err], by simp [Response.wf],
      .inr (.inr (.inr (.inr ⟨_, _, rfl, rfl⟩)))⟩
  case memSnapshot p q =>
    exact ⟨s, _, rfl, by simp [Response.err],
      fun h => decide_eq_true h, .inl (by simp)⟩
  case aluSdiv a b =>
    rcases divisor_cases a b with ⟨_, h⟩ | ⟨_, h⟩ <;> rw [execAluSdiv, h] <;>
      refine ⟨s, _, rfl, ?_, ?_, .inl ?_⟩ <;> simp [Response.err, Response.wf, ErrorKind.code]
  case aluUdiv a b =>
    rcases divisor_cases a b with ⟨_, h⟩ | ⟨_, h⟩ <;> rw [execAluUdiv, h] <;>
      refine ⟨s, _, rfl, ?_, ?_, .inl ?_⟩ <;> simp [Response.err, Response.wf, ErrorKind.code]
  case seExtend32 ignored value width =>
    rcases extendWidth_cases Config.narrowWidth width with ⟨n, _, _, _, h⟩ | ⟨_, h⟩ <;>
      rw [execSeExtend32, h] <;> refine ⟨s, _, rfl, ?_, ?_, .inl ?_⟩ <;>
      simp [Response.err, Response.wf, ErrorKind.code]
  case seExtend64 value width =>
    rcases extendWidth_cases Config.wideWidth width with ⟨n, _, _, _, h⟩ | ⟨_, h⟩ <;>
      rw [execSeExtend64, h] <;> refine ⟨s, _, rfl, ?_, ?_, .inl ?_⟩ <;>
      simp [Response.err, Response.wf, ErrorKind.code]
  case aluUnknown code a b =>
    exact ⟨s, _, rfl, by simp [Response.err], by simp [Response.wf], .inl (by simp)⟩
  all_goals
    exact ⟨s, _, rfl, by simp [Response.err],
      by simp [Response.wf, plainOutcome, markerOutcome, addOutcome, subOutcome], .inl (by simp)⟩

/-- A step with no input on the interface. -/
theorem step_nil {s : State} (h : s.inputs = []) : step s = .fault .noCommand := by
  simp [step, State.takeInput, h]

/-- A step with a reset event next. -/
theorem step_reset {s : State} {rest : List Input} (h : s.inputs = .reset :: rest) :
    step s = .next { s with inputs := rest }.resetBlock := by
  simp [step, State.takeInput, h]

/-- A step with a frame next that spells no command. -/
theorem step_invalid {s : State} {f : Frame} {rest : List Input} {why : DecodeError}
    (h : s.inputs = .command f :: rest) (hf : decode f = .error why) :
    step s = .refused (.invalidCommand why) := by
  simp [step, State.takeInput, h, hf]

/-- Everything a step that goes on can have done: a reset, or a command performed. -/
theorem step_next_cases {s t : State} (h : step s = .next t) :
    ∃ input rest, s.inputs = input :: rest ∧
      ((input = .reset ∧ t = { s with inputs := rest }.resetBlock) ∨
        ∃ f i, input = .command f ∧ decode f = .ok i ∧ exec i { s with inputs := rest } = .next t) := by
  unfold step State.takeInput at h
  cases hi : s.inputs with
  | nil => simp [hi] at h
  | cons input rest =>
    refine ⟨input, rest, rfl, ?_⟩
    cases input with
    | reset =>
      left
      simp only [hi] at h
      cases h
      exact ⟨rfl, rfl⟩
    | command f =>
      right
      simp only [hi] at h
      cases hd : decode f with
      | error why => simp [hd] at h
      | ok i =>
        simp only [hd] at h
        exact ⟨f, i, rfl, hd, h⟩

/-- A run of no steps. -/
theorem run_zero (s : State) : core.run 0 s = .next s := rfl

/-- A run whose first step goes on is that step and then the rest of the run. -/
theorem run_next {n : Nat} {s t : State} (h : step s = .next t) : core.run (n + 1) s = core.run n t := by
  have h' : core.step s = .next t := h
  simp only [Host.Core.run, h']

end Sys2Proof.Machine
end

