-- ==== Sys2Proof/Laws/PerInstr.lean ====
section
/-! SUPPORT. Statements made of every command, one lemma per constructor of `Instr`. -/

namespace Sys2Proof.Laws.EncodeSpellsRow

/-- The command's frame spells a row of the command table, and the row is the command's own (rules R85 to R88,
R92, R95). -/
def Statement (i : Sys2Proof.Instr) : Prop :=
  ∃ row ∈ Sys2Proof.commandTable, row.mnemonic = i.mnemonic ∧ row.spells (Sys2Proof.encode i) = true

/-- A frame whose code is a row's exact code spells that row. -/
theorem of_row {i : Sys2Proof.Instr} (row : Sys2Proof.CommandRow) (cmd : BitVec 8) (p q : Sys2Proof.Word)
    (he : Sys2Proof.encode i = Sys2Proof.mkFrame cmd p q) (hr : row ∈ Sys2Proof.commandTable)
    (hm : row.mnemonic = i.mnemonic) (hc : (cmd &&& row.cmdMask == row.cmdMatch) = true) :
    Statement i :=
  ⟨row, hr, hm, by rw [he, Sys2Proof.CommandRow.spells, Sys2Proof.mkFrame_cmd]; exact hc⟩

/-- The fifteen reserved codes and the canonical one spell the row of `ALU.UNKNOWN` (rule R92). -/
theorem unknown_code : ∀ code : BitVec 4, ((0x5#4 ++ code : BitVec 8) &&& 0xF0#8 == 0x50#8) = true := by
  decide

theorem rfRead (index : Int) (ignored : Sys2Proof.Word) :
    Statement (.rfRead index ignored) :=
  of_row ⟨"RF.READ", 0x00, 0xFF⟩ 0x00 _ _ rfl (by decide) rfl rfl

theorem rfWrite (index : Int) (value : Sys2Proof.Word) :
    Statement (.rfWrite index value) :=
  of_row ⟨"RF.WRITE", 0x01, 0xFF⟩ 0x01 _ _ rfl (by decide) rfl rfl

theorem rfClear (p q : Sys2Proof.Word) :
    Statement (.rfClear p q) :=
  of_row ⟨"RF.CLEAR", 0x02, 0xFF⟩ 0x02 _ _ rfl (by decide) rfl rfl

theorem memRead (address ignored : Sys2Proof.Word) :
    Statement (.memRead address ignored) :=
  of_row ⟨"MEM.READ", 0x20, 0xFF⟩ 0x20 _ _ rfl (by decide) rfl rfl

theorem memWrite (address value : Sys2Proof.Word) :
    Statement (.memWrite address value) :=
  of_row ⟨"MEM.WRITE", 0x21, 0xFF⟩ 0x21 _ _ rfl (by decide) rfl rfl

theorem memClear (p q : Sys2Proof.Word) :
    Statement (.memClear p q) :=
  of_row ⟨"MEM.CLEAR", 0x22, 0xFF⟩ 0x22 _ _ rfl (by decide) rfl rfl

theorem memSnapshot (p q : Sys2Proof.Word) :
    Statement (.memSnapshot p q) :=
  of_row ⟨"MEM.SNAPSHOT", 0x23, 0xFF⟩ 0x23 _ _ rfl (by decide) rfl rfl

theorem aluAdd (a b : Sys2Proof.Word) :
    Statement (.aluAdd a b) :=
  of_row ⟨"ALU.ADD", 0x40, 0xFF⟩ 0x40 _ _ rfl (by decide) rfl rfl

theorem aluSub (a b : Sys2Proof.Word) :
    Statement (.aluSub a b) :=
  of_row ⟨"ALU.SUB", 0x41, 0xFF⟩ 0x41 _ _ rfl (by decide) rfl rfl

theorem aluAnd (a b : Sys2Proof.Word) :
    Statement (.aluAnd a b) :=
  of_row ⟨"ALU.AND", 0x42, 0xFF⟩ 0x42 _ _ rfl (by decide) rfl rfl

theorem aluOrr (a b : Sys2Proof.Word) :
    Statement (.aluOrr a b) :=
  of_row ⟨"ALU.ORR", 0x43, 0xFF⟩ 0x43 _ _ rfl (by decide) rfl rfl

theorem aluEor (a b : Sys2Proof.Word) :
    Statement (.aluEor a b) :=
  of_row ⟨"ALU.EOR", 0x44, 0xFF⟩ 0x44 _ _ rfl (by decide) rfl rfl

theorem aluLsl (a b : Sys2Proof.Word) :
    Statement (.aluLsl a b) :=
  of_row ⟨"ALU.LSL", 0x45, 0xFF⟩ 0x45 _ _ rfl (by decide) rfl rfl

theorem aluLsr (a b : Sys2Proof.Word) :
    Statement (.aluLsr a b) :=
  of_row ⟨"ALU.LSR", 0x46, 0xFF⟩ 0x46 _ _ rfl (by decide) rfl rfl

theorem aluAsr (a b : Sys2Proof.Word) :
    Statement (.aluAsr a b) :=
  of_row ⟨"ALU.ASR", 0x47, 0xFF⟩ 0x47 _ _ rfl (by decide) rfl rfl

theorem aluMov (a b : Sys2Proof.Word) :
    Statement (.aluMov a b) :=
  of_row ⟨"ALU.MOV", 0x48, 0xFF⟩ 0x48 _ _ rfl (by decide) rfl rfl

theorem aluPassA (a b : Sys2Proof.Word) :
    Statement (.aluPassA a b) :=
  of_row ⟨"ALU.PASS_A", 0x49, 0xFF⟩ 0x49 _ _ rfl (by decide) rfl rfl

theorem aluMul (a b : Sys2Proof.Word) :
    Statement (.aluMul a b) :=
  of_row ⟨"ALU.MUL", 0x4A, 0xFF⟩ 0x4A _ _ rfl (by decide) rfl rfl

theorem aluSmulh (a b : Sys2Proof.Word) :
    Statement (.aluSmulh a b) :=
  of_row ⟨"ALU.SMULH", 0x4B, 0xFF⟩ 0x4B _ _ rfl (by decide) rfl rfl

theorem aluUmulh (a b : Sys2Proof.Word) :
    Statement (.aluUmulh a b) :=
  of_row ⟨"ALU.UMULH", 0x4C, 0xFF⟩ 0x4C _ _ rfl (by decide) rfl rfl

theorem aluSdiv (a b : Sys2Proof.Word) :
    Statement (.aluSdiv a b) :=
  of_row ⟨"ALU.SDIV", 0x4D, 0xFF⟩ 0x4D _ _ rfl (by decide) rfl rfl

theorem aluUdiv (a b : Sys2Proof.Word) :
    Statement (.aluUdiv a b) :=
  of_row ⟨"ALU.UDIV", 0x4E, 0xFF⟩ 0x4E _ _ rfl (by decide) rfl rfl

theorem aluIdle (a b : Sys2Proof.Word) :
    Statement (.aluIdle a b) :=
  of_row ⟨"ALU.IDLE", 0x4F, 0xFF⟩ 0x4F _ _ rfl (by decide) rfl rfl

theorem aluUnknown (code : BitVec 4) (a b : Sys2Proof.Word) :
    Statement (.aluUnknown code a b) :=
  of_row ⟨"ALU.UNKNOWN", 0x50, 0xF0⟩ (0x5#4 ++ code) _ _ rfl (by decide) rfl (unknown_code code)

theorem seExtend32 (ignored value : BitVec 32) (width : Int) :
    Statement (.seExtend32 ignored value width) :=
  of_row ⟨"SE.EXTEND32", 0x60, 0xFF⟩ 0x60 _ _ rfl (by decide) rfl rfl

theorem seExtend64 (value : Sys2Proof.Word) (width : Int) :
    Statement (.seExtend64 value width) :=
  of_row ⟨"SE.EXTEND64", 0x61, 0xFF⟩ 0x61 _ _ rfl (by decide) rfl rfl

end Sys2Proof.Laws.EncodeSpellsRow
end

