-- ==== Sys2Proof/Machine/Text.lean ====
section
/-! DEFINITION. The spec's textual notation of a command (rule R97): reading one line and writing one
command. The machine does not use it; it is the notation in which the spec gives its vectors.
DESIGN CHOICE (log 16), safe. -/

namespace Sys2Proof.Machine

/-- A blank inside a line. -/
def isBlank (c : Char) : Bool := c == ' ' || c == '\t'

/-- The characters without leading and trailing blanks. -/
def trimBlanks (cs : List Char) : List Char :=
  ((cs.dropWhile isBlank).reverse.dropWhile isBlank).reverse

/-- The value of a digit character, hexadecimal letters in either case. -/
def digitValue (c : Char) : Option Nat :=
  if '0' ≤ c ∧ c ≤ '9' then some (c.toNat - '0'.toNat)
  else if 'a' ≤ c ∧ c ≤ 'f' then some (c.toNat - 'a'.toNat + 10)
  else if 'A' ≤ c ∧ c ≤ 'F' then some (c.toNat - 'A'.toNat + 10)
  else none

/-- The digits of a number in a base, after the value read so far. -/
def readDigits (base : Nat) : List Char → Nat → Option Nat
  | [], value => some value
  | c :: cs, value =>
    match digitValue c with
    | some d => if d < base then readDigits base cs (value * base + d) else none
    | none => none

/-- A number in a base, at least one digit. -/
def readNat (base : Nat) (cs : List Char) : Option Nat :=
  if cs.isEmpty then none else readDigits base cs 0

/-- An operand: decimal with an optional leading minus, `0x` hexadecimal or `0b` binary (rule R97). -/
def readNumber : List Char → Option Int
  | '-' :: cs => (readNat 10 cs).map fun n => -(n : Int)
  | '0' :: 'x' :: cs => (readNat 16 cs).map Int.ofNat
  | '0' :: 'b' :: cs => (readNat 2 cs).map Int.ofNat
  | cs => (readNat 10 cs).map Int.ofNat

/-- The parts between commas. -/
def splitCommas : List Char → List (List Char)
  | [] => [[]]
  | ',' :: cs => [] :: splitCommas cs
  | c :: cs =>
    match splitCommas cs with
    | [] => [[c]]
    | part :: parts => (c :: part) :: parts

/-- The operands of a line, each the vector `bv64(n)` of its number (rule R97). -/
def readOperands (cs : List Char) : Option (List Word) :=
  if (trimBlanks cs).isEmpty then some []
  else (splitCommas cs).mapM fun part => (readNumber (trimBlanks part)).map bv64

/-- The command a name and its operands write, in canonical form (rules R82, R97). -/
def commandOf : String → List Word → Option Instr
  | "RF.READ", [index] => some (.rfRead index.toInt 0)
  | "RF.WRITE", [index, value] => some (.rfWrite index.toInt value)
  | "RF.CLEAR", [] => some (.rfClear 0 0)
  | "MEM.READ", [address] => some (.memRead address 0)
  | "MEM.WRITE", [address, value] => some (.memWrite address value)
  | "MEM.CLEAR", [] => some (.memClear 0 0)
  | "MEM.SNAPSHOT", [] => some (.memSnapshot 0 0)
  | "ALU.ADD", [a, b] => some (.aluAdd a b)
  | "ALU.SUB", [a, b] => some (.aluSub a b)
  | "ALU.AND", [a, b] => some (.aluAnd a b)
  | "ALU.ORR", [a, b] => some (.aluOrr a b)
  | "ALU.EOR", [a, b] => some (.aluEor a b)
  | "ALU.LSL", [a, b] => some (.aluLsl a b)
  | "ALU.LSR", [a, b] => some (.aluLsr a b)
  | "ALU.ASR", [a, b] => some (.aluAsr a b)
  | "ALU.MOV", [a, b] => some (.aluMov a b)
  | "ALU.PASS_A", [a, b] => some (.aluPassA a b)
  | "ALU.MUL", [a, b] => some (.aluMul a b)
  | "ALU.SMULH", [a, b] => some (.aluSmulh a b)
  | "ALU.UMULH", [a, b] => some (.aluUmulh a b)
  | "ALU.SDIV", [a, b] => some (.aluSdiv a b)
  | "ALU.UDIV", [a, b] => some (.aluUdiv a b)
  | "ALU.IDLE", [a, b] => some (.aluIdle a b)
  | "ALU.UNKNOWN", [a, b] => some (.aluUnknown 0 a b)
  | "SE.EXTEND32", [value, width] =>
    some (.seExtend32 0 (value.extractLsb' 0 32) width.toInt)
  | "SE.EXTEND64", [value, width] => some (.seExtend64 value width.toInt)
  | _, _ => none

/-- The command one line of the notation writes; a `;` starts a comment (rule R97). -/
def readCommand (line : String) : Option Instr :=
  let cs := trimBlanks (line.toList.takeWhile (· ≠ ';'))
  let name := cs.takeWhile fun c => !isBlank c
  (readOperands (cs.dropWhile fun c => !isBlank c)).bind (commandOf (String.ofList name))

/-- The operands of a command as the notation lists them; ignored fields are not written (rule R97). -/
def operandsOf : Instr → List Int
  | .rfRead index _ => [index]
  | .rfWrite index value => [index, value.toNat]
  | .rfClear _ _ => []
  | .memRead address _ => [address.toInt]
  | .memWrite address value => [address.toInt, value.toNat]
  | .memClear _ _ => []
  | .memSnapshot _ _ => []
  | .aluAdd a b => [a.toNat, b.toNat]
  | .aluSub a b => [a.toNat, b.toNat]
  | .aluAnd a b => [a.toNat, b.toNat]
  | .aluOrr a b => [a.toNat, b.toNat]
  | .aluEor a b => [a.toNat, b.toNat]
  | .aluLsl a b => [a.toNat, b.toNat]
  | .aluLsr a b => [a.toNat, b.toNat]
  | .aluAsr a b => [a.toNat, b.toNat]
  | .aluMov a b => [a.toNat, b.toNat]
  | .aluPassA a b => [a.toNat, b.toNat]
  | .aluMul a b => [a.toNat, b.toNat]
  | .aluSmulh a b => [a.toNat, b.toNat]
  | .aluUmulh a b => [a.toNat, b.toNat]
  | .aluSdiv a b => [a.toNat, b.toNat]
  | .aluUdiv a b => [a.toNat, b.toNat]
  | .aluIdle a b => [a.toNat, b.toNat]
  | .aluUnknown _ a b => [a.toNat, b.toNat]
  | .seExtend32 _ value width => [value.toNat, width]
  | .seExtend64 value width => [value.toNat, width]

/-- The line that writes a command in the notation (rule R97), operands in decimal. The reserved codes of
`ALU.UNKNOWN` have no spelling of their own and are written as the tag. -/
def writeCommand (i : Instr) : String :=
  i.mnemonic ++ " " ++ String.intercalate ", " ((operandsOf i).map toString)

end Sys2Proof.Machine
end

