-- ==== Sys2Proof/Tests/Slice0.lean ====
section
/-! SUPPORT. Tests of the model on fixed values, and a witness for every statement that has hypotheses. The
expected frames and responses are the spec's own (its file 95_test_vectors, whose tables the comments name) or
are worked out by hand from the rule a comment names. -/

namespace Sys2Proof.Tests

open Sys2Proof Sys2Proof.Machine

/-- A small state: register 5 holds 0x55, the hidden cell of register 31 holds 9, key 0x40 holds 0x99 (the start
of program P4 of the vectors, with the hidden cell set). -/
def loaded : State where
  slot := (State.reset.slot.set 5 0x55).set 31 9
  mem := [(0x40, 0x99)]
  inputs := []
  responses := []

/-- The state a step leaves when this frame is the next command of a state. -/
def afterFrame (s : State) (f : Frame) : Option State :=
  match step { s with inputs := [.command f] } with
  | .next t => some t
  | .fault _ => none
  | .refused _ => none

/-- The response frame of one step on the small state. -/
def wire (f : Frame) : Option ResponseFrame :=
  (afterFrame loaded f).bind fun t => t.responses.head?.map Response.frame

/-- The response of one step on the small state. -/
def answer (f : Frame) : Option Response :=
  (afterFrame loaded f).bind fun t => t.responses.head?

/-- The block (slots and memory) after one step on the small state. -/
def block (f : Frame) : Option (Vector Word 32 × Memory) :=
  (afterFrame loaded f).map fun t => (t.slot, t.mem)

/-- The code of a frame spells a command. -/
def spelled (cmd : BitVec 8) : Bool := (decode (mkFrame cmd 0 0)).toOption.isSome

/-! Well-formedness: each integer field has a bound on each side (rule R83) -/

theorem test_wf_refuses_index_above : (Instr.rfRead (2 ^ 63) 0).wf = false := by decide
theorem test_wf_refuses_write_index_below : (Instr.rfWrite (-2 ^ 63 - 1) 0).wf = false := by decide
theorem test_wf_refuses_narrow_width : (Instr.seExtend32 0 0 (2 ^ 63)).wf = false := by decide
theorem test_wf_refuses_wide_width : (Instr.seExtend64 0 (-2 ^ 63 - 1)).wf = false := by decide

/-! Decoding: a frame written out for every command from the tables of rules R82 to R88 -/

theorem test_decode_rfRead :
    decode 0x00FFFFFFFFFFFFFFFF123456789ABCDEF0#136 = .ok (.rfRead (-1) 0x123456789ABCDEF0) := by decide

theorem test_decode_rfWrite :
    decode 0x01800000000000000000000000DEADBEEF#136 = .ok (.rfWrite (-2 ^ 63) 0xDEADBEEF) := by decide

theorem test_decode_rfClear :
    decode 0x02FFFFFFFFFFFFFFFF123456789ABCDEF0#136 = .ok (.rfClear (-1) 0x123456789ABCDEF0) := by decide

theorem test_decode_memRead :
    decode 0x2000000000000010010000000000000007#136 = .ok (.memRead 0x1001 7) := by decide

theorem test_decode_memWrite :
    decode 0x2100000000000010001122334455667788#136 = .ok (.memWrite 0x1000 0x1122334455667788) := by decide

theorem test_decode_memClear :
    decode 0x2200000000000000010000000000000002#136 = .ok (.memClear 1 2) := by decide

theorem test_decode_memSnapshot :
    decode 0x2300000000000000030000000000000004#136 = .ok (.memSnapshot 3 4) := by decide

theorem test_decode_aluAdd :
    decode 0x400000000000000005FFFFFFFFFFFFFFF7#136 = .ok (.aluAdd 5 (-9)) := by decide

theorem test_decode_aluSub :
    decode 0x410000000000000005FFFFFFFFFFFFFFF7#136 = .ok (.aluSub 5 (-9)) := by decide

theorem test_decode_aluAnd :
    decode 0x420000000000000005FFFFFFFFFFFFFFF7#136 = .ok (.aluAnd 5 (-9)) := by decide

theorem test_decode_aluOrr :
    decode 0x430000000000000005FFFFFFFFFFFFFFF7#136 = .ok (.aluOrr 5 (-9)) := by decide

theorem test_decode_aluEor :
    decode 0x440000000000000005FFFFFFFFFFFFFFF7#136 = .ok (.aluEor 5 (-9)) := by decide

theorem test_decode_aluLsl :
    decode 0x450000000000000005FFFFFFFFFFFFFFF7#136 = .ok (.aluLsl 5 (-9)) := by decide

theorem test_decode_aluLsr :
    decode 0x460000000000000005FFFFFFFFFFFFFFF7#136 = .ok (.aluLsr 5 (-9)) := by decide

theorem test_decode_aluAsr :
    decode 0x470000000000000005FFFFFFFFFFFFFFF7#136 = .ok (.aluAsr 5 (-9)) := by decide

theorem test_decode_aluMov :
    decode 0x480000000000000005FFFFFFFFFFFFFFF7#136 = .ok (.aluMov 5 (-9)) := by decide

theorem test_decode_aluPassA :
    decode 0x490000000000000005FFFFFFFFFFFFFFF7#136 = .ok (.aluPassA 5 (-9)) := by decide

theorem test_decode_aluMul :
    decode 0x4A0000000000000005FFFFFFFFFFFFFFF7#136 = .ok (.aluMul 5 (-9)) := by decide

theorem test_decode_aluSmulh :
    decode 0x4B0000000000000005FFFFFFFFFFFFFFF7#136 = .ok (.aluSmulh 5 (-9)) := by decide

theorem test_decode_aluUmulh :
    decode 0x4C0000000000000005FFFFFFFFFFFFFFF7#136 = .ok (.aluUmulh 5 (-9)) := by decide

theorem test_decode_aluSdiv :
    decode 0x4D0000000000000005FFFFFFFFFFFFFFF7#136 = .ok (.aluSdiv 5 (-9)) := by decide

theorem test_decode_aluUdiv :
    decode 0x4E0000000000000005FFFFFFFFFFFFFFF7#136 = .ok (.aluUdiv 5 (-9)) := by decide

theorem test_decode_aluIdle :
    decode 0x4F0000000000000005FFFFFFFFFFFFFFF7#136 = .ok (.aluIdle 5 (-9)) := by decide

theorem test_decode_aluUnknown :
    decode 0x5F00000000000000050000000000000007#136 = .ok (.aluUnknown 0xF 5 7) := by decide

theorem test_decode_seExtend32 :
    decode 0x6012345678ABCD92340000000000000010#136 = .ok (.seExtend32 0x12345678 0xABCD9234 16) := by decide

theorem test_decode_seExtend64 :
    decode 0x610000000180000000FFFFFFFFFFFFFFFF#136 = .ok (.seExtend64 0x180000000 (-1)) := by decide

/-- Table 2.12 and rule R93: the codes at both ends of every reserved range. -/
theorem test_decode_refuses_reserved :
    (spelled 0x03 || spelled 0x1F || spelled 0x24 || spelled 0x3F || spelled 0x62 || spelled 0x7F ||
      spelled 0x80 || spelled 0xA5 || spelled 0xFF) = false := by decide

/-- The codes next to those ranges spell commands. -/
theorem test_decode_accepts_neighbours :
    (spelled 0x02 && spelled 0x20 && spelled 0x23 && spelled 0x40 && spelled 0x5F && spelled 0x60 &&
      spelled 0x61) = true := by decide

/-- The table's numbering: bits 135:128 are `cmd`; a word of fewer bits leaves the others 0. -/
theorem test_table_word :
    decodeTableWord 136 0x010000000000000005000000000000001F = some (.rfWrite 5 0x1F) ∧
      decodeTableWord 8 0xFF = some (.rfRead 0 0xFF) ∧ decodeTableWord 136 (3 <<< 128) = none := by
  decide

/-- The fetched table word is the very next command. -/
theorem test_fetch_word :
    (step (State.reset.withFetchWord 136 0x010000000000000005000000000000001F) matches .next _) = true ∧
      (State.reset.withFetchWord 136 0x010000000000000005000000000000001F).inputs =
        [.command 0x010000000000000005000000000000001F#136] := by
  decide

/-! One step per command: response frames of the vectors, in the tables 2.1 to 2.11 and P4 -/

theorem test_rfRead_value :
    wire 0x0000000000000000050000000000000000#136 = some 0x0000000000000000055#73 := by decide

theorem test_rfWrite_negative :
    wire 0x01FFFFFFFFFFFFFFFF0000000000000007#136 = some 0x0200000000000000000#73 := by decide

theorem test_memRead_value :
    wire 0x2000000000000000400000000000000000#136 = some 0x0000000000000000099#73 := by decide

theorem test_memRead_negative :
    wire 0x20FFFFFFFFFFFFFFFF0000000000000000#136 = some 0x0400000000000000000#73 := by decide

theorem test_memWrite_negative :
    wire 0x21FFFFFFFFFFFFFFF80000000000000005#136 = some 0x0400000000000000000#73 := by decide

theorem test_aluAdd_wraps :
    wire 0x407FFFFFFFFFFFFFFF0000000000000001#136 = some 0x0098000000000000000#73 := by decide

theorem test_aluAdd_carries :
    wire 0x400000000000000001FFFFFFFFFFFFFFFF#136 = some 0x0060000000000000000#73 := by decide

theorem test_aluSub_overflow_at_min :
    wire 0x4100000000000000008000000000000000#136 = some 0x0098000000000000000#73 := by decide

theorem test_aluSub_borrow :
    wire 0x4100000000000000030000000000000005#136 = some 0x008FFFFFFFFFFFFFFFE#73 := by decide

theorem test_aluAnd :
    wire 0x42FF00FF00FF00FF000FF00FF00FF00FF0#136 = some 0x0000F000F000F000F00#73 := by decide

theorem test_aluAnd_zero :
    wire 0x4200000000000000050000000000000002#136 = some 0x0040000000000000000#73 := by decide

theorem test_aluOrr :
    wire 0x43FF00FF00FF00FF000FF00FF00FF00FF0#136 = some 0x008FFF0FFF0FFF0FFF0#73 := by decide

theorem test_aluEor :
    wire 0x44FF00FF00FF00FF000FF00FF00FF00FF0#136 = some 0x008F0F0F0F0F0F0F0F0#73 := by decide

theorem test_aluLsl_amount_65 :
    wire 0x4500000000000000010000000000000041#136 = some 0x0000000000000000002#73 := by decide

theorem test_aluLsl_loses_top_bit :
    wire 0x4580000000000000000000000000000001#136 = some 0x0040000000000000000#73 := by decide

theorem test_aluLsr_amount_0x104 :
    wire 0x4600000000000000F00000000000000104#136 = some 0x000000000000000000F#73 := by decide

theorem test_aluLsr_fills_zeros :
    wire 0x46FFFFFFFFFFFFFFFF0000000000000004#136 = some 0x0000FFFFFFFFFFFFFFF#73 := by decide

theorem test_aluAsr_floors :
    wire 0x47FFFFFFFFFFFFFFF90000000000000001#136 = some 0x008FFFFFFFFFFFFFFFC#73 := by decide

theorem test_aluAsr_sign_fills :
    wire 0x478000000000000000000000000000003F#136 = some 0x008FFFFFFFFFFFFFFFF#73 := by decide

theorem test_aluMov :
    wire 0x480000000000000007FFFFFFFFFFFFFFF7#136 = some 0x008FFFFFFFFFFFFFFF7#73 := by decide

theorem test_aluPassA :
    wire 0x49FFFFFFFFFFFFFFF70000000000000007#136 = some 0x008FFFFFFFFFFFFFFF7#73 := by decide

theorem test_aluMul_signed :
    wire 0x4AFFFFFFFFFFFFFFFD0000000000000005#136 = some 0x008FFFFFFFFFFFFFFF1#73 := by decide

theorem test_aluMul_loses_high_half :
    wire 0x4A00000001000000000000000100000000#136 = some 0x0040000000000000000#73 := by decide

theorem test_aluSmulh_small_negative :
    wire 0x4BFFFFFFFFFFFFFFFD0000000000000005#136 = some 0x008FFFFFFFFFFFFFFFF#73 := by decide

theorem test_aluSmulh_min :
    wire 0x4B80000000000000008000000000000000#136 = some 0x0004000000000000000#73 := by decide

theorem test_aluUmulh :
    wire 0x4CFFFFFFFFFFFFFFFFFFFFFFFFFFFFFFFF#136 = some 0x008FFFFFFFFFFFFFFFE#73 := by decide

theorem test_aluSdiv_toward_zero :
    wire 0x4DFFFFFFFFFFFFFFF90000000000000002#136 = some 0x008FFFFFFFFFFFFFFFD#73 := by decide

theorem test_aluSdiv_min_by_minus_one :
    wire 0x4D8000000000000000FFFFFFFFFFFFFFFF#136 = some 0x0088000000000000000#73 := by decide

theorem test_aluUdiv_unsigned :
    wire 0x4EFFFFFFFFFFFFFFF90000000000000002#136 = some 0x0007FFFFFFFFFFFFFFC#73 := by decide

theorem test_aluIdle_zero_flag_clear :
    wire 0x4F00000000000000050000000000000007#136 = some 0x0000000000000000000#73 := by decide

theorem test_aluUnknown_marker :
    wire 0x5000000000000000050000000000000007#136 = some 0x0100000000000000000#73 := by decide

theorem test_aluUnknown_reserved_code :
    wire 0x5A00000000000000050000000000000007#136 = some 0x0100000000000000000#73 := by decide

theorem test_seExtend32 :
    wire 0x6000000000ABCD92340000000000000010#136 = some 0x000FFFFFFFFFFFF9234#73 := by decide

theorem test_seExtend32_native_width :
    wire 0x60FFFFFFFF800000000000000000000020#136 = some 0x000FFFFFFFF80000000#73 := by decide

theorem test_seExtend64_width_33 :
    wire 0x6100000001800000000000000000000021#136 = some 0x000FFFFFFFF80000000#73 := by decide

theorem test_seExtend64_width_63 :
    wire 0x614000000000000000000000000000003F#136 = some 0x000C000000000000000#73 := by decide

/-- An error of `RF.READ` carries the index, the attempted operation and the frame as it came, ignored bits
included (rules R90, R252). -/
theorem test_rfRead_error :
    answer 0x00000000000000002000000000000000AB#136 =
      some (.error (.invalidRegisterIndex 32 .read) 0x00000000000000002000000000000000AB#136) := by
  decide

/-- `RF.WRITE` changes one slot (rule R121). -/
theorem test_rfWrite_block :
    block 0x0100000000000000060000000000000066#136 = some (loaded.slot.set 6 0x66, loaded.mem) := by
  decide

/-- `RF.CLEAR` clears the hidden cell too and leaves the memory (rule R122). -/
theorem test_rfClear_block :
    block 0x0200000000000000000000000000000000#136 = some (State.reset.slot, [(0x40, 0x99)]) := by
  decide

/-- A write of 0 at a misaligned key below makes that key present and nothing else (rules R52, R141). -/
theorem test_memWrite_block :
    block 0x21000000000000003F0000000000000000#136 =
      some (loaded.slot, [(0x3F, 0), (0x40, 0x99)]) := by
  decide

/-- `MEM.CLEAR` empties the map and leaves the registers (rule R142). -/
theorem test_memClear_block :
    block 0x2200000000000000000000000000000000#136 = some (loaded.slot, []) := by decide

/-- The snapshot of rule R143's example, with the entry frames of rule R91. -/
theorem test_memSnapshot :
    ((afterFrame { loaded with mem := [(0x08, 0), (0x09, 7), (0x20, 5)] }
        0x2300000000000000000000000000000000#136).bind fun t => t.responses.head?) =
      some (.snapshot [(0x08, 0), (0x09, 7), (0x20, 5)]) ∧
    (Response.snapshot [(0x08, 0), (0x09, 7)]).frame = 0x0000000000000000002#73 ∧
    (Response.snapshot [(0x08, 0), (0x09, 7)]).entryFrames =
      [0x00000000000000080000000000000000#128, 0x00000000000000090000000000000007#128] := by
  decide

/-- After an error the block is as before (table 2.8, rules R258, R262). -/
theorem test_aluUdiv_by_zero :
    wire 0x4E00000000000000050000000000000000#136 = some 0x0800000000000000000#73 ∧
      block 0x4E00000000000000050000000000000000#136 = some (loaded.slot, loaded.mem) := by decide

/-- A run with nothing left to do ends, and a reserved code is refused (rules R93, R304). -/
theorem test_step_stops :
    (step loaded matches .fault .noCommand) = true ∧
      (step { loaded with inputs := [.command 0xA500000000000000000000000000000000#136] } matches
        .refused (.invalidCommand (.reservedUnit _))) = true := by
  decide

/-! The notation of rule R97 (the commands of rule R99) -/

theorem test_text_add : (readCommand "ALU.ADD 1, -1").map encode =
    some 0x400000000000000001FFFFFFFFFFFFFFFF#136 := by decide

theorem test_text_write : (readCommand "RF.WRITE 5, 0x10 ; a comment").map encode =
    some 0x0100000000000000050000000000000010#136 := by decide

theorem test_text_extend : (readCommand "SE.EXTEND32 0b1010, 4").map encode =
    some 0x60000000000000000A0000000000000004#136 := by decide

theorem test_text_clear : (readCommand "MEM.CLEAR").map encode =
    some 0x2200000000000000000000000000000000#136 := by decide

theorem test_text_written : writeCommand (.rfWrite (-1) 7) = "RF.WRITE -1, 7" := by decide

/-! Witnesses: for each statement with hypotheses, a state and operands that meet them, at the boundaries -/

/-- Both ends of the integer field, and a reserved ALU code. -/
theorem witness_DecodeOfEncodeIsTheCommand :
    (Instr.rfRead (-2 ^ 63) 7).wf = true ∧ (Instr.rfWrite (2 ^ 63 - 1) 7).wf = true ∧
      (Instr.seExtend32 1 2 (2 ^ 63 - 1)).wf = true ∧ (Instr.aluUnknown 0xF 1 2).wf = true := by
  decide

/-- A frame with every ignored bit set. -/
theorem witness_EncodeOfDecodeIsTheFrame :
    decode 0x22FFFFFFFFFFFFFFFFFFFFFFFFFFFFFFFF#136 = .ok (.memClear (-1) (-1)) := by decide

theorem witness_DecoderFollowsCommandTable :
    decode 0x51FFFFFFFFFFFFFFFF0000000000000000#136 = .ok (.aluUnknown 1 (-1) 0) ∧
      (⟨"ALU.UNKNOWN", 0x50, 0xF0⟩ : CommandRow) ∈ commandTable := by
  decide

theorem witness_IgnoredFieldsHaveNoEffect :
    (Instr.rfRead 32 0).canonical = (Instr.rfRead 32 (-1)).canonical ∧
      (Instr.seExtend32 0 0xA 33).canonical = (Instr.seExtend32 0xFFFFFFFF 0xA 33).canonical := by
  decide

/-- A state with one command waiting. -/
def waiting (f : Frame) : State := { loaded with inputs := [.command f] }

theorem witness_StepPerformsDecodedCommand :
    (waiting 0x0100000000000000050000000000000010#136).inputs =
        .command 0x0100000000000000050000000000000010#136 :: [] ∧
      decode 0x0100000000000000050000000000000010#136 = .ok (.rfWrite 5 0x10) := by
  decide

/-- Both sides of every boundary of the reserved ranges. -/
theorem witness_StepRefusesExactlyReservedCodes :
    (waiting 0x0300000000000000000000000000000000#136).inputs =
        .command 0x0300000000000000000000000000000000#136 :: [] ∧
      (spelled 0x02 && !spelled 0x03 && !spelled 0x1F && spelled 0x20 && spelled 0x23 &&
        !spelled 0x24 && !spelled 0x3F && spelled 0x40 && spelled 0x61 && !spelled 0x62 &&
        !spelled 0x7F && !spelled 0x80 && !spelled 0xFF) = true := by
  decide

/-- A state with a reset event waiting. -/
def resetWaiting : State := { loaded with inputs := [.reset] }

theorem witness_ResetEqualsBothClears : resetWaiting.inputs = .reset :: [] := by decide

/-- Clause 1 at 0, 28 and 30, clause 2 at 31, clause 3 at -1, 32 and the most negative index. -/
theorem witness_RfReadAnswersRegister :
    ((0 : Int) = (0 : Fin 32).val ∧ (28 : Int) = (28 : Fin 32).val ∧ (30 : Int) = (30 : Fin 32).val ∧
      (30 : Fin 32).val ≠ 31) ∧
    exec (.rfRead 5 0) loaded = .next (loaded.answered (.result 0x55)) ∧
    exec (.rfRead 31 0) loaded = .next (loaded.answered (.result 0)) ∧
    AnswersError (.rfRead (-1) 0) loaded (.invalidRegisterIndex (-1) .read) ∧
    AnswersError (.rfRead 32 0) loaded (.invalidRegisterIndex 32 .read) ∧
    AnswersError (.rfRead (-2 ^ 63) 0) loaded (.invalidRegisterIndex (-2 ^ 63) .read) :=
  ⟨by decide, rfl, rfl, rfl, rfl, rfl⟩

/-- Clause 1 at 0 and 31, clause 2 at -1 and 32. -/
theorem witness_RfWriteStoresOneSlot :
    ((0 : Int) = (0 : Fin 32).val ∧ (31 : Int) = (31 : Fin 32).val) ∧
    exec (.rfWrite 31 7) loaded = .next ((loaded.writeReg 31 7).respond .done) ∧
    AnswersError (.rfWrite (-1) 7) loaded (.invalidRegisterIndex (-1) .write) ∧
    AnswersError (.rfWrite 32 7) loaded (.invalidRegisterIndex 32 .write) :=
  ⟨by decide, rfl, rfl, rfl⟩

/-- Two states that differ in the hidden cell. -/
theorem witness_ZeroSlotIsHidden :
    SameButZeroSlot loaded { loaded with slot := loaded.slot.set 31 8 } ∧
      loaded ≠ { loaded with slot := loaded.slot.set 31 8 } := by
  decide

/-- Each writer changes what it may change. -/
theorem witness_OnlyTheWritersChangeState :
    (block 0x0100000000000000060000000000000066#136).map Prod.fst ≠ some loaded.slot ∧
    (block 0x0200000000000000000000000000000000#136).map Prod.fst ≠ some loaded.slot ∧
    (block 0x2100000000000000410000000000000000#136).map Prod.snd ≠ some loaded.mem ∧
    (block 0x2200000000000000000000000000000000#136).map Prod.snd ≠ some loaded.mem ∧
    step resetWaiting = .next State.reset ∧ State.reset.slot ≠ loaded.slot ∧
    State.reset.mem ≠ loaded.mem :=
  ⟨by decide, by decide, by decide, by decide, rfl, by decide, by decide⟩

/-- A present key, the lowest and the highest key, and the two negative ends. -/
theorem witness_MemReadAnswersWord :
    loaded.mem.wf ∧ (0x40, 0x99) ∈ loaded.mem ∧
    (0 ≤ (0 : Word).toInt ∧ 0 ≤ max64.toInt ∧ (-1 : Word).toInt < 0 ∧ min64.toInt < 0) ∧
    exec (.memRead 0x40 0) loaded = .next (loaded.answered (.result 0x99)) ∧
    exec (.memRead max64 0) loaded = .next (loaded.answered (.result 0)) ∧
    AnswersError (.memRead min64 0) loaded (.negativeAddress (-2 ^ 63)) :=
  ⟨by decide, by decide, by decide, rfl, rfl, rfl⟩

/-- The lowest and the highest key, and the two negative ends. -/
theorem witness_MemWriteStoresOneKey :
    (0 ≤ (0 : Word).toInt ∧ 0 ≤ max64.toInt ∧ (-1 : Word).toInt < 0 ∧ min64.toInt < 0) ∧
    exec (.memWrite 0 1) loaded = .next ((loaded.writeMem 0 1).respond .done) ∧
    exec (.memWrite max64 1) loaded = .next ((loaded.writeMem (2 ^ 63 - 1) 1).respond .done) ∧
    AnswersError (.memWrite (-1) 1) loaded (.negativeAddress (-1)) :=
  ⟨by decide, rfl, rfl, rfl⟩

/-- A memory with an entry whose word is 0. -/
theorem witness_MemSnapshotListsPresentKeys :
    Memory.wf [(0x08, 0), (0x09, 7), (2 ^ 63 - 1, 5)] := by decide

/-- The same key, and the next one. -/
theorem witness_MemoryReadAfterWrite :
    0 ≤ (0x40 : Word).toInt ∧ 0 ≤ (0x41 : Word).toInt ∧ 0 ≤ max64.toInt := by decide

/-- A state with a response of each kind given and a reset waiting. -/
def answeredAll : State := { loaded with
  inputs := [.reset]
  responses := [.done, .result 7, .alu (markerOutcome true), .snapshot [(1, 0), (2, 5)],
    .error (.divisionByZero 1 0) 0] }

theorem witness_StepKeepsWellFormed :
    answeredAll.wf ∧
      step answeredAll = .next { State.reset with responses := answeredAll.responses } :=
  ⟨by decide, rfl⟩

/-- Inputs of both kinds, a command that answers an error among them. -/
def mixedInputs : List Input :=
  [.command 0x0100000000000000050000000000000010#136, .reset,
   .command 0x2100000000000000400000000000000007#136,
   .command 0x4D000000000000000A0000000000000000#136]

theorem witness_RunLeavesLatestWrites : ∀ x ∈ mixedInputs, x.valid = true := by decide

theorem witness_RunAnswersEveryCommand :
    (∀ x ∈ mixedInputs, x.valid = true) ∧ commandCount mixedInputs = 3 := by decide

theorem witness_EarlierResponsesHaveNoInfluence :
    loaded.slot = (loaded.answered .done).slot ∧ loaded.mem = (loaded.answered .done).mem ∧
      loaded.inputs = (loaded.answered .done).inputs ∧ loaded ≠ loaded.answered .done := by
  decide

/-- A state with a whole dump waiting. -/
theorem witness_RegisterDumpShowsEveryRegister :
    ({ loaded with inputs := registerDump.map (fun i => Input.command (encode i)) } : State).inputs =
      registerDump.map (fun i => Input.command (encode i)) ++ [] ∧ registerDump.length = 32 := by
  decide

/-- The same map built in two orders. -/
theorem witness_EqualMapsAreEqualData :
    Memory.wf ((Memory.write [] 9 7).write 8 0) ∧ Memory.wf ((Memory.write [] 8 0).write 9 7) ∧
      (Memory.write [] 9 7).write 8 0 = (Memory.write [] 8 0).write 9 7 := by
  decide

theorem witness_ErrorsChangeNothing :
    exec (.aluSdiv 10 0) loaded =
      .next (loaded.answered (.error (.divisionByZero 10 0) 0x4D000000000000000A0000000000000000#136)) :=
  rfl

theorem witness_ErrorContextIsInTheEcho :
    (Instr.rfRead (-1) 3).wf = true ∧
      exec (.rfRead (-1) 3) loaded = .next (loaded.answered
        (.error (.invalidRegisterIndex (-1) .read) 0x00FFFFFFFFFFFFFFFF0000000000000003#136)) :=
  ⟨by decide, rfl⟩

theorem witness_InvalidRegisterIndexExactly :
    AnswersError (.rfRead 32 0) loaded (.invalidRegisterIndex 32 .read) ∧
      AnswersError (.rfWrite (-1) 0) loaded (.invalidRegisterIndex (-1) .write) ∧
      ¬((31 : Int) < 0 ∨ (31 : Int) < 31) ∧ ¬((0 : Int) < 0) :=
  ⟨rfl, rfl, by decide, by decide⟩

theorem witness_NegativeAddressExactly :
    AnswersError (.memRead (-1) 0) loaded (.negativeAddress (-1)) ∧
      AnswersError (.memWrite min64 0) loaded (.negativeAddress (-2 ^ 63)) ∧ ¬(max64.toInt < 0) :=
  ⟨rfl, rfl, by decide⟩

theorem witness_InvalidBitWidthExactly :
    AnswersError (.seExtend32 0 5 0) loaded (.invalidBitWidth 0) ∧
      AnswersError (.seExtend32 0 5 33) loaded (.invalidBitWidth 33) ∧
      AnswersError (.seExtend64 5 0) loaded (.invalidBitWidth 0) ∧
      AnswersError (.seExtend64 5 65) loaded (.invalidBitWidth 65) :=
  ⟨rfl, rfl, rfl, rfl⟩

theorem witness_DivisionByZeroExactly :
    AnswersError (.aluSdiv 0 0) loaded (.divisionByZero 0 0) ∧
      AnswersError (.aluUdiv 5 0) loaded (.divisionByZero 5 0) :=
  ⟨rfl, rfl⟩

/-- An addition that overflows, a subtraction that does, and a product that does not fit. -/
theorem witness_OverflowIsUnrepresentableResult :
    AnswersOutcome (.aluAdd max64 1) loaded (addOutcome max64 1) ∧
      (addOutcome max64 1).overflow = true ∧
      AnswersOutcome (.aluSub 0 min64) loaded (subOutcome 0 min64) ∧
      (subOutcome 0 min64).overflow = true ∧
      AnswersOutcome (.aluMul max64 2) loaded (plainOutcome (mulResult max64 2)) :=
  ⟨rfl, by decide, rfl, by decide, rfl⟩

theorem witness_CarryIsUnsignedCarryOrNoBorrow :
    AnswersOutcome (.aluAdd 1 (-1)) loaded (addOutcome 1 (-1)) ∧ (addOutcome 1 (-1)).carry = true ∧
      AnswersOutcome (.aluSub 7 0) loaded (subOutcome 7 0) ∧ (subOutcome 7 0).carry = true ∧
      (subOutcome 3 5).carry = false :=
  ⟨rfl, by decide, rfl, by decide, by decide⟩

theorem witness_NegativeAndZeroFollowResult :
    AnswersOutcome (.aluIdle 5 7) loaded (markerOutcome false) ∧
      AnswersOutcome (.aluUnknown 3 5 7) loaded (markerOutcome true) ∧
      AnswersOutcome (.aluEor 5 5) loaded (plainOutcome 0) ∧ (plainOutcome 0).zero = true :=
  ⟨rfl, rfl, rfl, by decide⟩

theorem witness_SubFlagsCompareOperands :
    AnswersOutcome (.aluSub 0 min64) loaded (subOutcome 0 min64) ∧
      AnswersOutcome (.aluSub 5 5) loaded (subOutcome 5 5) :=
  ⟨rfl, rfl⟩

theorem witness_AluCommandsInTermsOfEachOther :
    AnswersOutcome (.aluSub 3 min64) loaded (subOutcome 3 min64) ∧
      AnswersOutcome (.aluAdd 3 (bv64 (-min64.toInt))) loaded (addOutcome 3 (bv64 (-min64.toInt))) ∧
      AnswersOutcome (.aluAdd 3 (~~~min64)) loaded (addOutcome 3 (~~~min64)) ∧
      AnswersOutcome (.aluAdd (addOutcome 3 (~~~min64)).result 1) loaded
        (addOutcome (addOutcome 3 (~~~min64)).result 1) :=
  ⟨rfl, rfl, rfl, rfl⟩

theorem witness_ProductHalvesMakeTheProduct :
    AnswersOutcome (.aluMul min64 (-1)) loaded (plainOutcome (mulResult min64 (-1))) ∧
      AnswersOutcome (.aluSmulh min64 (-1)) loaded (plainOutcome (smulhResult min64 (-1))) ∧
      AnswersOutcome (.aluUmulh min64 (-1)) loaded (plainOutcome (umulhResult min64 (-1))) :=
  ⟨rfl, rfl, rfl⟩

/-- A divisor 1, the greatest divisor, and 0. -/
theorem witness_UdivAnswersUnsignedQuotient :
    (1#64 ≠ 0#64 ∧ (-1 : Word) ≠ 0#64) ∧
      AnswersOutcome (.aluUdiv min64 (-1)) loaded (plainOutcome 0) ∧
      AnswersError (.aluUdiv 0 0) loaded (.divisionByZero 0 0) :=
  ⟨by decide, rfl, rfl⟩

/-- An inexact quotient, the quotient that does not fit, the corner's neighbours, and the divisor 0. -/
theorem witness_SdivAnswersSignedQuotient :
    (2#64 ≠ 0#64 ∧ (-1 : Word) ≠ 0#64 ∧ (-1 : Word).toInt = -1) ∧
      AnswersOutcome (.aluSdiv (-7) 2) loaded (plainOutcome (-3)) ∧
      AnswersOutcome (.aluSdiv min64 (-1)) loaded (plainOutcome min64) ∧
      AnswersOutcome (.aluSdiv max64 (-1)) loaded (plainOutcome (min64 + 1)) ∧
      AnswersOutcome (.aluSdiv min64 1) loaded (plainOutcome min64) ∧
      AnswersError (.aluSdiv min64 0) loaded (.divisionByZero min64 0) :=
  ⟨by decide, rfl, rfl, rfl, rfl, rfl⟩

theorem witness_AluAndSignExtenderArePure :
    (encode (.aluSdiv 1 0)).cmd.extractLsb' 5 3 = 2#3 ∧
      (encode (.seExtend64 1 65)).cmd.extractLsb' 5 3 = 3#3 ∧
      ¬((encode (.rfRead 0 0)).cmd.extractLsb' 5 3 = 2#3) := by
  decide

/-- Clause 1 at widths 1 and 64, clause 2 at 0, 65 and a negative width. -/
theorem witness_Extend64CopiesTheSignBit :
    ((1 : Int) = (1 : Nat) ∧ (64 : Int) = (64 : Nat)) ∧
      exec (.seExtend64 0xFFFFFFFFFFFFFFFE 1) loaded = .next (loaded.answered (.result 0)) ∧
      exec (.seExtend64 min64 64) loaded = .next (loaded.answered (.result min64)) ∧
      AnswersError (.seExtend64 5 0) loaded (.invalidBitWidth 0) ∧
      AnswersError (.seExtend64 5 65) loaded (.invalidBitWidth 65) ∧
      AnswersError (.seExtend64 5 (-1)) loaded (.invalidBitWidth (-1)) :=
  ⟨by decide, rfl, rfl, rfl, rfl, rfl⟩

/-- Clause 1 at widths 1 and 32, clause 2 at 0, 33 and a negative width. -/
theorem witness_Extend32CopiesTheSignBit :
    ((1 : Int) = (1 : Nat) ∧ (32 : Int) = (32 : Nat)) ∧
      exec (.seExtend32 0 1 1) loaded = .next (loaded.answered (.result (-1))) ∧
      exec (.seExtend32 0xFFFFFFFF 0x80000000 32) loaded =
        .next (loaded.answered (.result 0xFFFFFFFF80000000)) ∧
      AnswersError (.seExtend32 0 5 0) loaded (.invalidBitWidth 0) ∧
      AnswersError (.seExtend32 0 5 33) loaded (.invalidBitWidth 33) ∧
      AnswersError (.seExtend32 0 5 (-2 ^ 63)) loaded (.invalidBitWidth (-2 ^ 63)) :=
  ⟨by decide, rfl, rfl, rfl, rfl, rfl⟩

/-- A negative value below the native width, and the native width itself. -/
theorem witness_ExtensionIsTheSourceAlgorithm :
    exec (.seExtend64 0x180000000 (33 : Nat)) loaded =
        .next (loaded.answered (.result 0xFFFFFFFF80000000)) ∧
      exec (.seExtend64 max64 (64 : Nat)) loaded = .next (loaded.answered (.result max64)) :=
  ⟨rfl, rfl⟩

/-- Widths at which both forms are legal, and one at which only the wide form is. -/
theorem witness_ExtensionIsIdempotentAndFormsAgree :
    exec (.seExtend64 0xFFFFFFFF80000000 (32 : Nat)) loaded =
        .next (loaded.answered (.result 0xFFFFFFFF80000000)) ∧
      exec (.seExtend64 0x180000000 (33 : Nat)) loaded =
        .next (loaded.answered (.result 0xFFFFFFFF80000000)) :=
  ⟨rfl, rfl⟩

theorem witness_ResponseFramesFollowTheLayout :
    Memory.wf [(0, 0), (1, 7), (2 ^ 63 - 1, 5)] := by decide

/-- A canonical memory, keys next to each other, and inputs that write only another key. -/
theorem witness_MemoryStoreKeepsItsLaws :
    loaded.mem.wf ∧ 0 ≤ (0x40 : Word).toInt ∧ 0 ≤ (0x41 : Word).toInt ∧ (0x41 : Word) ≠ 0x40 ∧
      0 ≤ max64.toInt ∧ (-1 : Word).toInt < 0 ∧ min64.toInt < 0 ∧
      (∀ x ∈ mixedInputs, x.valid = true ∧ ∀ v, x.command? ≠ some (.memWrite 0x41 v)) := by
  refine ⟨by decide, by decide, by decide, by decide, by decide, by decide, by decide, ?_⟩
  intro x hx
  refine ⟨(by decide : ∀ x ∈ mixedInputs, x.valid = true) x hx, fun v hv => ?_⟩
  have other : ∀ x ∈ mixedInputs, x.command? = some (.rfWrite 5 0x10) ∨ x.command? = none ∨
      x.command? = some (.memWrite 0x40 7) ∨ x.command? = some (.aluSdiv 10 0) := by decide
  rcases other x hx with h | h | h | h <;> rw [h] at hv <;> simp at hv

end Sys2Proof.Tests
end

section
/-! SUPPORT. Decoding answers only well-formed commands, unit by unit: the one integer operand a command has
is read from a 64-bit field, so it fits that field (rules R82, R83). -/

namespace Sys2Proof

theorem decodeRegisterFile_wf {f : Frame} {i : Instr} (h : decodeRegisterFile f = .ok i) :
    i.wf = true := by
  unfold decodeRegisterFile at h
  split_ifs at h <;> cases h
  · exact fitsSigned64_toInt f.p
  · exact fitsSigned64_toInt f.p
  · rfl

theorem decodeMemoryStore_wf {f : Frame} {i : Instr} (h : decodeMemoryStore f = .ok i) :
    i.wf = true := by
  unfold decodeMemoryStore at h
  split_ifs at h <;> cases h <;> rfl

/-- No ALU command has an integer operand, so each branch of the decoder is well formed. -/
theorem decodeAlu_wf (f : Frame) : (decodeAlu f).wf = true := by
  simp only [decodeAlu, apply_ite Instr.wf]
  simp only [Instr.wf, ite_self]

theorem decodeSignExtender_wf {f : Frame} {i : Instr} (h : decodeSignExtender f = .ok i) :
    i.wf = true := by
  unfold decodeSignExtender at h
  split_ifs at h <;> cases h <;> exact fitsSigned64_toInt f.q

/-- What a frame decodes to, a frame can carry: the split follows the unit code (rule R81). -/
theorem decode_wf {f : Frame} {i : Instr} (h : decode f = .ok i) : i.wf = true := by
  unfold decode at h
  split_ifs at h with registerFile memoryStore alu signExtender
  · exact decodeRegisterFile_wf h
  · exact decodeMemoryStore_wf h
  · cases h
    exact decodeAlu_wf f
  · exact decodeSignExtender_wf h

end Sys2Proof
end

section
/-! The step and the interface (family `00_scope.md`). -/

namespace Sys2Proof.Machine

/-- A step with a frame next that spells a command. -/
theorem step_command {s : State} {f : Frame} {rest : List Input} {i : Instr}
    (h : s.inputs = .command f :: rest) (hf : decode f = .ok i) :
    step s = exec i { s with inputs := rest } := by
  simp [step, State.takeInput, h, hf]

/-- Settles O6: the decoder answers well-formed commands only, and the step is `step_command`. -/
theorem stepPerformsDecodedCommand : Obligations.StepPerformsDecodedCommand := by
  intro s f rest i hnext hdecode
  exact ⟨decode_wf hdecode, step_command hnext hdecode⟩

end Sys2Proof.Machine
end

section
/-! What every step keeps of the memory and the responses, and which steps change the block (family
`10_state.md`). -/

namespace Sys2Proof.Machine

/-- Settles O8: a fresh register file holds 0 in every slot, so a register reads 0 whether it is the zero register
or not, and the empty map has no key. -/
theorem resetStateIsZeroAndEmpty : Obligations.ResetStateIsZeroAndEmpty := by
  have slot_zero (i : Fin 32) : State.reset.slot[i] = 0#64 := by simp
  refine ⟨fun i => ⟨slot_zero i, ?_⟩, fun a => ⟨Memory.present_nil a, Memory.read_nil a⟩⟩
  rw [State.readReg_eq, slot_zero, ite_self]

/-- Settles O22: the memory part is `Memory.wf_reset`, and there is no response yet. -/
theorem resetIsWellFormed : Obligations.ResetIsWellFormed :=
  ⟨Memory.wf_reset, by simp⟩

/-- A canonical map has no pair twice. -/
theorem Memory.nodup_of_wf {m : Memory} (h : m.wf) : m.Nodup :=
  h.1.imp fun hlt heq => Nat.ne_of_lt hlt (congrArg Prod.fst heq)

/-- Settles O28: the two maps hold the same pairs, and a strictly rising list is fixed by the pairs it holds. -/
theorem equalMapsAreEqualData : Obligations.EqualMapsAreEqualData := by
  intro m m' hm hm' hsame
  have same_pairs : ∀ e, e ∈ m ↔ e ∈ m' := by
    rintro ⟨a, w⟩
    obtain ⟨hpresent, hread⟩ := hsame a
    calc (a, w) ∈ m ↔ m.present a = true ∧ m.read a = w := Memory.mem_snapshot_iff hm a w
      _ ↔ m'.present a = true ∧ m'.read a = w := by rw [hpresent, hread]
      _ ↔ (a, w) ∈ m' := (Memory.mem_snapshot_iff hm' a w).symm
  have perm : m.Perm m' :=
    (List.perm_ext_iff_of_nodup (Memory.nodup_of_wf hm) (Memory.nodup_of_wf hm')).2 same_pairs
  exact perm.eq_of_pairwise (fun _ _ _ _ hlt hgt => absurd hgt (Nat.lt_asymm hlt)) hm.1 hm'.1

/-- A command that changes a slot is one of the two register writers (rule R124). -/
theorem exec_slot_changed {i : Instr} {s t : State} (h : exec i s = .next t) (hne : t.slot ≠ s.slot) :
    (∃ index value, i = .rfWrite index value) ∨ ∃ p q, i = .rfClear p q := by
  obtain ⟨u, r, hu, -, -, effect⟩ := exec_cases i s
  obtain rfl := Host.Outcome.next.inj (h.symm.trans hu)
  rcases effect with ⟨rfl, -⟩ | ⟨j, v, rfl, -⟩ | ⟨p, q, rfl, -⟩ | ⟨a, v, -, -, rfl⟩ | ⟨p, q, -, rfl⟩
  · exact absurd rfl hne
  · exact .inl ⟨_, _, rfl⟩
  · exact .inr ⟨_, _, rfl⟩
  · exact absurd rfl hne
  · exact absurd rfl hne

/-- A command that changes the memory is one of the two memory writers (rule R50). -/
theorem exec_mem_changed {i : Instr} {s t : State} (h : exec i s = .next t) (hne : t.mem ≠ s.mem) :
    (∃ address value, i = .memWrite address value) ∨ ∃ p q, i = .memClear p q := by
  obtain ⟨u, r, hu, -, -, effect⟩ := exec_cases i s
  obtain rfl := Host.Outcome.next.inj (h.symm.trans hu)
  rcases effect with ⟨rfl, -⟩ | ⟨j, v, -, rfl⟩ | ⟨p, q, -, rfl⟩ | ⟨a, v, rfl, -, -⟩ | ⟨p, q, rfl, -⟩
  · exact absurd rfl hne
  · exact absurd rfl hne
  · exact absurd rfl hne
  · exact .inl ⟨_, _, rfl⟩
  · exact .inr ⟨_, _, rfl⟩

/-- A step that goes on took the reset event, or a frame whose command has every property that performing it
shows. -/
theorem step_reset_or_command {s t : State} {P : Instr → Prop} (h : step s = .next t)
    (hP : ∀ i rest, exec i { s with inputs := rest } = .next t → P i) :
    s.inputs.head? = some .reset ∨
      ∃ f i, s.inputs.head? = some (.command f) ∧ decode f = .ok i ∧ P i := by
  obtain ⟨input, rest, hin, ⟨rfl, -⟩ | ⟨f, i, rfl, hdecode, hexec⟩⟩ := step_next_cases h
  · exact .inl (by rw [hin]; rfl)
  · exact .inr ⟨f, i, by rw [hin]; rfl, hdecode, hP i rest hexec⟩

/-- Settles O15: taking the input changes no slot and no key, so the change is the command's. -/
theorem onlyTheWritersChangeState : Obligations.OnlyTheWritersChangeState := by
  intro s t h
  exact ⟨fun hne => step_reset_or_command h fun _ _ hexec => exec_slot_changed hexec hne,
    fun hne => step_reset_or_command h fun _ _ hexec => exec_mem_changed hexec hne⟩

/-- An address that is not negative is a legal key (rule R51). -/
theorem toNat_lt_keyBound {a : Word} (h : a.msb = false) : a.toNat < Config.keyBound := by
  have hlt := BitVec.msb_eq_false_iff_two_mul_lt.1 h
  simp only [Config.keyBound]
  omega

/-- Performing a command keeps the invariant: its one new response is drivable, and of the commands that
touch the memory one writes at a legal key and the other empties it. -/
theorem exec_keeps_wf {i : Instr} {s t : State} (hs : s.wf) (h : exec i s = .next t) : t.wf := by
  obtain ⟨hmem, hresponses⟩ := hs
  obtain ⟨u, r, hu, -, hr, effect⟩ := exec_cases i s
  obtain rfl := Host.Outcome.next.inj (h.symm.trans hu)
  have kept (hm : u.mem.wf) (hold : u.responses = s.responses) : (u.respond r).wf := by
    refine ⟨hm, List.forall_mem_cons.2 ⟨hr hmem, ?_⟩⟩
    rwa [hold]
  rcases effect with ⟨rfl, -⟩ | ⟨j, v, -, rfl⟩ | ⟨p, q, -, rfl⟩ | ⟨a, v, -, ha, rfl⟩ | ⟨p, q, -, rfl⟩
  · exact kept hmem rfl
  · exact kept hmem rfl
  · exact kept hmem rfl
  · exact kept (Memory.wf_write a.toNat v (toNat_lt_keyBound ha) hmem) rfl
  · exact kept Memory.wf_nil rfl

/-- Settles O21: a reset empties the memory and answers nothing; a command is `exec_keeps_wf`. -/
theorem stepKeepsWellFormed : Obligations.StepKeepsWellFormed := by
  intro s t hs h
  obtain ⟨input, rest, -, ⟨-, rfl⟩ | ⟨f, i, -, -, hexec⟩⟩ := step_next_cases h
  · exact ⟨Memory.wf_nil, hs.2⟩
  · exact exec_keeps_wf (s := { s with inputs := rest }) hs hexec

end Sys2Proof.Machine
end

section
/-! Noninterference (family `10_state.md`): what a step cannot see. The hidden slot and the responses already
given are two cases of one argument: a relation between states that no operation of the machine can tell apart or
break is kept by every step and by every run. -/

namespace Sys2Proof.Machine

/-- No read of the machine tells related states apart, and every update of the machine, done on both sides, leaves
them related. -/
structure MachineCongruence (R : State → State → Prop) : Prop where
  readReg : ∀ {s t : State}, R s t → ∀ j, s.readReg j = t.readReg j
  mem : ∀ {s t : State}, R s t → s.mem = t.mem
  inputs : ∀ {s t : State}, R s t → s.inputs = t.inputs
  writeReg : ∀ {s t : State}, R s t → ∀ j v, R (s.writeReg j v) (t.writeReg j v)
  clearRegs : ∀ {s t : State}, R s t → R s.clearRegs t.clearRegs
  writeMem : ∀ {s t : State}, R s t → ∀ k v, R (s.writeMem k v) (t.writeMem k v)
  clearMem : ∀ {s t : State}, R s t → R s.clearMem t.clearMem
  setInputs : ∀ {s t : State}, R s t → ∀ rest, R { s with inputs := rest } { t with inputs := rest }
  respond : ∀ {s t : State}, R s t → ∀ r, R (s.respond r) (t.respond r)

section
variable {R : State → State → Prop} {s t : State}

/-- Two outcomes that agree, whole: both go on, or both stop for the same reason. -/
theorem OutcomesAgree.elim {x y : Result} (h : OutcomesAgree R x y) :
    (∃ s t, x = .next s ∧ y = .next t ∧ R s t) ∨ (∃ e, x = .fault e ∧ y = .fault e) ∨
      ∃ e, x = .refused e ∧ y = .refused e := by
  match x, y, h with
  | .next s, .next t, related => exact .inl ⟨s, t, rfl, rfl, related⟩
  | .fault e, .fault _, rfl => exact .inr (.inl ⟨e, rfl, rfl⟩)
  | .refused e, .refused _, rfl => exact .inr (.inr ⟨e, rfl, rfl⟩)

theorem MachineCongruence.complete_agrees (hR : MachineCongruence R) (h : R s t) (r : Response) :
    OutcomesAgree R (complete s r) (complete t r) :=
  hR.respond h r

/-- A command behind its operand check: the check sees the operands only. -/
theorem MachineCongruence.guarded_agrees (hR : MachineCongruence R) (h : R s t) {α : Type} {i : Instr}
    {check : Except ErrorKind α} {go go' : α → Result} (hgo : ∀ x, OutcomesAgree R (go x) (go' x)) :
    OutcomesAgree R (guarded i s check go) (guarded i t check go') := by
  cases check with
  | error kind => exact hR.complete_agrees h _
  | ok x => exact hgo x

/-- A command from related states answers alike and leaves related states. -/
theorem MachineCongruence.exec_agrees (hR : MachineCongruence R) (h : R s t) (i : Instr) :
    OutcomesAgree R (exec i s) (exec i t) := by
  cases i with
  | rfRead index ignored =>
    refine hR.guarded_agrees h fun j => ?_
    rw [hR.readReg h j]
    exact hR.complete_agrees h _
  | rfWrite index value => exact hR.guarded_agrees h fun j => hR.complete_agrees (hR.writeReg h j value) _
  | rfClear p q => exact hR.complete_agrees (hR.clearRegs h) _
  | memRead address ignored =>
    refine hR.guarded_agrees h fun key => ?_
    rw [hR.mem h]
    exact hR.complete_agrees h _
  | memWrite address value =>
    exact hR.guarded_agrees h fun key => hR.complete_agrees (hR.writeMem h key value) _
  | memClear p q => exact hR.complete_agrees (hR.clearMem h) _
  | memSnapshot p q =>
    simp only [exec, execMemSnapshot]
    rw [hR.mem h]
    exact hR.complete_agrees h _
  | aluSdiv a b => exact hR.guarded_agrees h fun _ => hR.complete_agrees h _
  | aluUdiv a b => exact hR.guarded_agrees h fun _ => hR.complete_agrees h _
  | seExtend32 ignored value width => exact hR.guarded_agrees h fun _ => hR.complete_agrees h _
  | seExtend64 value width => exact hR.guarded_agrees h fun _ => hR.complete_agrees h _
  | _ => exact hR.complete_agrees h _

/-- A step from related states takes the same input and agrees. -/
theorem MachineCongruence.step_agrees (hR : MachineCongruence R) (h : R s t) :
    OutcomesAgree R (step s) (step t) := by
  have hinputs := hR.inputs h
  cases hs : s.inputs with
  | nil =>
    rw [step_nil hs, step_nil (hinputs ▸ hs)]
    rfl
  | cons input rest =>
    have ht : t.inputs = input :: rest := hinputs ▸ hs
    have hrest := hR.setInputs h rest
    cases input with
    | reset =>
      rw [step_reset hs, step_reset ht]
      exact hR.clearMem (hR.clearRegs hrest)
    | command f =>
      cases hf : decode f with
      | error why =>
        rw [step_invalid hs hf, step_invalid ht hf]
        rfl
      | ok i =>
        rw [step_command hs hf, step_command ht hf]
        exact hR.exec_agrees hrest i

/-- A run ends at a step that faults. -/
theorem run_fault {e : Fault} (n : Nat) (h : step s = .fault e) : core.run (n + 1) s = .fault e := by
  have h' : core.step s = .fault e := h
  simp only [Host.Core.run, h']

/-- A run ends at a step that is refused. -/
theorem run_refused {e : Refusal} (n : Nat) (h : step s = .refused e) :
    core.run (n + 1) s = .refused e := by
  have h' : core.step s = .refused e := h
  simp only [Host.Core.run, h']

/-- Runs of any length from related states agree. -/
theorem MachineCongruence.run_agrees (hR : MachineCongruence R) (n : Nat) (h : R s t) :
    OutcomesAgree R (core.run n s) (core.run n t) := by
  induction n generalizing s t with
  | zero => exact h
  | succ n ih =>
    rcases (hR.step_agrees h).elim with ⟨s', t', hs, ht, h'⟩ | ⟨e, hs, ht⟩ | ⟨e, hs, ht⟩
    · rw [run_next hs, run_next ht]
      exact ih h'
    · rw [run_fault n hs, run_fault n ht]
      rfl
    · rw [run_refused n hs, run_refused n ht]
      rfl

end

/-- The two states hold the same block and inputs, and have given the same responses since those in `old` and
in `old'`. -/
def SameSince (old old' : List Response) (s t : State) : Prop :=
  s.slot = t.slot ∧ s.mem = t.mem ∧ s.inputs = t.inputs ∧
    ∃ new, s.responses = new ++ old ∧ t.responses = new ++ old'

/-- No operation looks at a response already given. -/
theorem sameSince_congruence (old old' : List Response) : MachineCongruence (SameSince old old') where
  readReg := fun ⟨hslot, _⟩ j => by rw [State.readReg_eq, State.readReg_eq, hslot]
  mem := fun ⟨_, hmem, _⟩ => hmem
  inputs := fun ⟨_, _, hinputs, _⟩ => hinputs
  writeReg := fun ⟨hslot, hkept⟩ j v => ⟨congrArg (·.set j v) hslot, hkept⟩
  clearRegs := fun ⟨_, hkept⟩ => ⟨rfl, hkept⟩
  writeMem := fun ⟨hslot, hmem, hkept⟩ k v => ⟨hslot, congrArg (·.write k v) hmem, hkept⟩
  clearMem := fun ⟨hslot, _, hkept⟩ => ⟨hslot, rfl, hkept⟩
  setInputs := fun ⟨hslot, hmem, _, hnew⟩ _ => ⟨hslot, hmem, rfl, hnew⟩
  respond := fun ⟨hslot, hmem, hinputs, new, hs, ht⟩ r =>
    ⟨hslot, hmem, hinputs, r :: new, congrArg (r :: ·) hs, congrArg (r :: ·) ht⟩

/-- Settles O25: the step lemma for `SameSince`, where at first no response is new. -/
theorem earlierResponsesHaveNoInfluence : Obligations.EarlierResponsesHaveNoInfluence := by
  intro s t hslot hmem hinputs
  have related : SameSince s.responses t.responses s t := ⟨hslot, hmem, hinputs, [], rfl, rfl⟩
  exact (sameSince_congruence s.responses t.responses).step_agrees related

/-- No operation reads the hidden cell: the architectural read gives 0 for it and the slot for every other
register (rule R22). -/
theorem sameButZeroSlot_congruence : MachineCongruence SameButZeroSlot where
  readReg := fun ⟨hslot, _⟩ j => by
    rw [State.readReg_eq, State.readReg_eq]
    split
    · rfl
    · next hj => exact hslot j hj
  mem := fun ⟨_, hmem, _⟩ => hmem
  inputs := fun ⟨_, _, hinputs, _⟩ => hinputs
  writeReg := fun ⟨hslot, hkept⟩ j v =>
    ⟨fun k hk => by rw [State.slot_writeReg, State.slot_writeReg, hslot k hk], hkept⟩
  clearRegs := fun ⟨_, hkept⟩ => ⟨fun _ _ => rfl, hkept⟩
  writeMem := fun ⟨hslot, hmem, hkept⟩ k v => ⟨hslot, congrArg (·.write k v) hmem, hkept⟩
  clearMem := fun ⟨hslot, _, hkept⟩ => ⟨hslot, rfl, hkept⟩
  setInputs := fun ⟨hslot, hmem, _, hresponses⟩ _ => ⟨hslot, hmem, rfl, hresponses⟩
  respond := fun ⟨hslot, hmem, hinputs, hresponses⟩ r =>
    ⟨hslot, hmem, hinputs, congrArg (r :: ·) hresponses⟩

/-- `RF.WRITE` at a legal index stores the value and answers no result. -/
theorem exec_rfWrite_fin (j : Fin 32) (v : Word) (s : State) :
    exec (.rfWrite j.val v) s = .next ((s.writeReg j v).respond .done) := by
  simp only [exec, execRfWrite, registerIndex_fin, guarded_ok, complete_eq]

/-- A write to the zero register differs from no write in the hidden cell only. -/
theorem sameButZeroSlot_writeReg {j : Fin 32} (hj : j.val = Config.zeroIndex) (s : State) (v : Word) :
    SameButZeroSlot (s.writeReg j v) s := by
  refine ⟨fun k hk => ?_, rfl, rfl, rfl⟩
  have hne : k ≠ j := fun heq => hk (heq ▸ hj)
  rw [State.slot_writeReg, if_neg hne]

/-- Settles O14: runs by the congruence, the write to register 31 by `sameButZeroSlot_writeReg`. -/
theorem zeroSlotIsHidden : Obligations.ZeroSlotIsHidden := by
  refine ⟨fun n s t h => sameButZeroSlot_congruence.run_agrees n h, fun v s => ?_⟩
  exact ⟨_, exec_rfWrite_fin 31 v s,
    sameButZeroSlot_congruence.respond (sameButZeroSlot_writeReg rfl s v) .done⟩

end Sys2Proof.Machine
end

section
/-! The memory store (family `20_memory.md`): reading after writing, and what a whole run leaves. A run is
followed through the words and slots that the inputs still to come will leave: no step changes those, and once no
input is left they are the words and slots that stand in the block. -/

namespace Sys2Proof.Machine

/-- What a read gives after one write, at every key. -/
theorem Memory.read_write (m : Memory) (a b : Nat) (v : Word) :
    (m.write a v).read b = if b = a then v else m.read b := by
  split
  · next h => rw [h, Memory.read_write_same]
  · next h => exact Memory.read_write_other m v h

theorem msb_false_of_nonneg {a : Word} (h : 0 ≤ a.toInt) : a.msb = false :=
  Bool.eq_false_iff.2 fun hmsb => Int.not_lt.2 h ((toInt_neg_iff a).2 hmsb)

/-- The key of an address that is not negative (rule R51). -/
theorem memoryKey_of_msb_false {a : Word} (h : a.msb = false) : memoryKey a = .ok a.toNat := by
  rcases memoryKey_cases a with ⟨-, -, hkey⟩ | ⟨hneg, -⟩
  · exact hkey
  · simp [h] at hneg

/-- `MEM.WRITE` at an address that is not negative stores the value and answers no result. -/
theorem exec_memWrite_of_msb_false {a : Word} (h : a.msb = false) (v : Word) (s : State) :
    exec (.memWrite a v) s = .next ((s.writeMem a.toNat v).respond .done) := by
  simp only [exec, execMemWrite, memoryKey_of_msb_false h, guarded_ok, complete_eq]

/-- `MEM.READ` at an address that is not negative answers the word of its key. -/
theorem exec_memRead_of_msb_false {a : Word} (h : a.msb = false) (ignored : Word) (s : State) :
    exec (.memRead a ignored) s = .next (s.answered (.result (s.mem.read a.toNat))) := by
  simp only [exec, execMemRead, memoryKey_of_msb_false h, guarded_ok, complete_eq]
  rfl

/-- Settles O20: the two writes store under the key of `a`, and the key of `b` is that key only where `b` is `a`. -/
theorem memoryReadAfterWrite : Obligations.MemoryReadAfterWrite := by
  intro a b v w ignored s ha hb
  have hkey := msb_false_of_nonneg ha
  have hread := exec_memRead_of_msb_false (msb_false_of_nonneg hb) ignored
  refine ⟨_, _, exec_memWrite_of_msb_false hkey v s, exec_memWrite_of_msb_false hkey w _, ?_, ?_⟩
  · rw [hread, State.respond_mem, State.writeMem_mem, Memory.read_write]
    simp only [BitVec.toNat_inj]
  · rw [hread, State.respond_mem, State.writeMem_mem, State.respond_mem, State.writeMem_mem,
      Memory.read_write_write]
    simp only [BitVec.toNat_inj]

/-! What the next input does to the latest word and to the latest slot -/

section
variable {f : Frame} {i : Instr}

theorem latestWord_memWrite {a v : Word} (hf : decode f = .ok (.memWrite a v)) (ha : a.msb = false)
    (k : Nat) (rest : List Input) (before : Word) :
    latestWord k (.command f :: rest) before = latestWord k rest (if k = a.toNat then v else before) := by
  simp only [latestWord, hf, ha, true_and, eq_comm (a := k)]

theorem latestWord_memClear {p q : Word} (hf : decode f = .ok (.memClear p q))
    (k : Nat) (rest : List Input) (before : Word) :
    latestWord k (.command f :: rest) before = latestWord k rest 0 := by
  simp only [latestWord, hf]

/-- A command that is no effective memory writer: a write at a negative address changes nothing (rule R258). -/
theorem latestWord_other (hf : decode f = .ok i) (hwrite : ∀ a v, i = .memWrite a v → a.msb = true)
    (hclear : ∀ p q, i ≠ .memClear p q) (k : Nat) (rest : List Input) (before : Word) :
    latestWord k (.command f :: rest) before = latestWord k rest before := by
  cases i with
  | memWrite a v => simp [latestWord, hf, hwrite a v rfl]
  | memClear p q => exact absurd rfl (hclear p q)
  | _ => simp only [latestWord, hf]

theorem latestSlot_rfWrite {j : Fin 32} {v : Word} (hf : decode f = .ok (.rfWrite j.val v))
    (l : Fin 32) (rest : List Input) (before : Word) :
    latestSlot l (.command f :: rest) before = latestSlot l rest (if l = j then v else before) := by
  simp only [latestSlot, hf, Nat.cast_inj, Fin.val_inj, eq_comm (a := l)]

theorem latestSlot_rfClear {p q : Word} (hf : decode f = .ok (.rfClear p q))
    (l : Fin 32) (rest : List Input) (before : Word) :
    latestSlot l (.command f :: rest) before = latestSlot l rest 0 := by
  simp only [latestSlot, hf]

/-- A command that is no effective register writer: a write outside 0 to 31 changes nothing (rule R258). -/
theorem latestSlot_other (hf : decode f = .ok i) (hwrite : ∀ x v, i = .rfWrite x v → ¬(0 ≤ x ∧ x ≤ 31))
    (hclear : ∀ p q, i ≠ .rfClear p q) (l : Fin 32) (rest : List Input) (before : Word) :
    latestSlot l (.command f :: rest) before = latestSlot l rest before := by
  cases i with
  | rfWrite x v =>
    have hx : x ≠ l.val := by
      have := hwrite x v rfl
      omega
    simp only [latestSlot, hf, if_neg hx]
  | rfClear p q => exact absurd rfl (hclear p q)
  | _ => simp only [latestSlot, hf]

end

/-- The word that the inputs still to come will leave at a key. -/
def State.finalWord (s : State) (k : Nat) : Word := latestWord k s.inputs (s.mem.read k)

/-- The value that the inputs still to come will leave in a slot. -/
def State.finalSlot (s : State) (l : Fin 32) : Word := latestSlot l s.inputs s.slot[l]

theorem State.finalWord_eq {s : State} {inputs : List Input} (h : s.inputs = inputs) (k : Nat) :
    s.finalWord k = latestWord k inputs (s.mem.read k) := by
  rw [State.finalWord, h]

theorem State.finalSlot_eq {s : State} {inputs : List Input} (h : s.inputs = inputs) (l : Fin 32) :
    s.finalSlot l = latestSlot l inputs s.slot[l] := by
  rw [State.finalSlot, h]

section
variable {s t : State} {f : Frame} {i : Instr}

/-- A command does to every word what `latestWord` says of its frame. -/
theorem exec_finalWord (hf : decode f = .ok i) (h : exec i s = .next t) (k : Nat) :
    t.finalWord k = latestWord k (.command f :: s.inputs) (s.mem.read k) := by
  obtain ⟨u, r, hu, -, -, effect⟩ := exec_cases i s
  obtain rfl := Host.Outcome.next.inj (h.symm.trans hu)
  rcases effect with ⟨rfl, -, hwrite, hclear⟩ | ⟨j, v, rfl, rfl⟩ | ⟨p, q, rfl, rfl⟩ |
    ⟨a, v, rfl, ha, rfl⟩ | ⟨p, q, rfl, rfl⟩
  · rw [latestWord_other hf hwrite fun p q => (hclear p q).2]
    rfl
  · rw [latestWord_other hf (by simp) (by simp)]
    rfl
  · rw [latestWord_other hf (by simp) (by simp)]
    rfl
  · rw [latestWord_memWrite hf ha, ← Memory.read_write]
    rfl
  · rw [latestWord_memClear hf]
    rfl

/-- A command does to every slot what `latestSlot` says of its frame. -/
theorem exec_finalSlot (hf : decode f = .ok i) (h : exec i s = .next t) (l : Fin 32) :
    t.finalSlot l = latestSlot l (.command f :: s.inputs) s.slot[l] := by
  obtain ⟨u, r, hu, -, -, effect⟩ := exec_cases i s
  obtain rfl := Host.Outcome.next.inj (h.symm.trans hu)
  rcases effect with ⟨rfl, hwrite, -, hclear⟩ | ⟨j, v, rfl, rfl⟩ | ⟨p, q, rfl, rfl⟩ |
    ⟨a, v, rfl, -, rfl⟩ | ⟨p, q, rfl, rfl⟩
  · rw [latestSlot_other hf hwrite fun p q => (hclear p q).1]
    rfl
  · rw [latestSlot_rfWrite hf, ← State.slot_writeReg]
    rfl
  · rw [latestSlot_rfClear hf]
    simp [State.finalSlot]
  · rw [latestSlot_other hf (by simp) (by simp)]
    rfl
  · rw [latestSlot_other hf (by simp) (by simp)]
    rfl

/-- A step leaves every word what the inputs were to make of it. -/
theorem step_keeps_finalWord (h : step s = .next t) (k : Nat) : t.finalWord k = s.finalWord k := by
  obtain ⟨input, rest, hin, ⟨rfl, rfl⟩ | ⟨f, i, rfl, hdecode, hexec⟩⟩ := step_next_cases h
  · rw [State.finalWord_eq hin]
    rfl
  · rw [exec_finalWord hdecode hexec, State.finalWord_eq hin]

/-- A step leaves every slot what the inputs were to make of it. -/
theorem step_keeps_finalSlot (h : step s = .next t) (l : Fin 32) : t.finalSlot l = s.finalSlot l := by
  obtain ⟨input, rest, hin, ⟨rfl, rfl⟩ | ⟨f, i, rfl, hdecode, hexec⟩⟩ := step_next_cases h
  · rw [State.finalSlot_eq hin]
    simp [State.finalSlot, latestSlot]
  · rw [exec_finalSlot hdecode hexec, State.finalSlot_eq hin]

/-- What every step keeps, every run that completes keeps. -/
theorem run_keeps {P : State → Prop} (hstep : ∀ {s t : State}, P s → step s = .next t → P t) {n : Nat}
    (hs : P s) (h : core.run n s = .next t) : P t := by
  induction n generalizing s with
  | zero =>
    rw [run_zero] at h
    cases h
    exact hs
  | succ n ih =>
    cases hnext : step s with
    | next s' =>
      rw [run_next hnext] at h
      exact ih (hstep hs hnext) h
    | fault e =>
      rw [run_fault n hnext] at h
      cases h
    | refused e =>
      rw [run_refused n hnext] at h
      cases h

/-- Every command completes, and takes no further input. -/
theorem exec_completes (i : Instr) (s : State) : ∃ t, exec i s = .next t ∧ t.inputs = s.inputs := by
  obtain ⟨u, r, hu, -, -, effect⟩ := exec_cases i s
  refine ⟨_, hu, ?_⟩
  rcases effect with ⟨rfl, -⟩ | ⟨j, v, -, rfl⟩ | ⟨p, q, -, rfl⟩ | ⟨a, v, -, -, rfl⟩ | ⟨p, q, -, rfl⟩ <;> rfl

theorem Input.decode_of_valid (h : (Input.command f).valid = true) : ∃ i, decode f = .ok i := by
  cases hf : decode f with
  | ok i => exact ⟨i, rfl⟩
  | error why => simp [Input.valid, hf, Except.toOption] at h

/-- A valid input is taken and performed. -/
theorem step_completes {input : Input} {rest : List Input} (hin : s.inputs = input :: rest)
    (hvalid : input.valid = true) : ∃ t, step s = .next t ∧ t.inputs = rest := by
  cases input with
  | reset => exact ⟨_, step_reset hin, rfl⟩
  | command f =>
    obtain ⟨i, hf⟩ := Input.decode_of_valid hvalid
    rw [step_command hin hf]
    exact exec_completes i _

/-- A run over valid inputs completes and takes them all (rule R304). -/
theorem run_completes (hvalid : ∀ x ∈ s.inputs, x.valid = true) :
    ∃ t, core.run s.inputs.length s = .next t ∧ t.inputs = [] := by
  generalize hin : s.inputs = inputs at hvalid
  induction inputs generalizing s with
  | nil => exact ⟨s, run_zero s, hin⟩
  | cons input rest ih =>
    obtain ⟨hfirst, hrest⟩ := List.forall_mem_cons.1 hvalid
    obtain ⟨t, hstep, ht⟩ := step_completes hin hfirst
    rw [List.length_cons, run_next hstep]
    exact ih ht hrest

end

/-- Settles O23: no step changes a final word or a final slot, and when the run has taken every input these are the
words and slots of the block. -/
theorem runLeavesLatestWrites : Obligations.RunLeavesLatestWrites := by
  intro s hvalid
  obtain ⟨t, hrun, hdone⟩ := run_completes hvalid
  refine ⟨t, hrun, hdone, fun k => ?_, fun l => ?_⟩
  · have kept : t.finalWord k = s.finalWord k :=
      run_keeps (P := fun u => u.finalWord k = s.finalWord k)
        (fun hP h => (step_keeps_finalWord h k).trans hP) rfl hrun
    rwa [State.finalWord_eq hdone] at kept
  · have kept : t.finalSlot l = s.finalSlot l :=
      run_keeps (P := fun u => u.finalSlot l = s.finalSlot l)
        (fun hP h => (step_keeps_finalSlot h l).trans hP) rfl hrun
    rwa [State.finalSlot_eq hdone] at kept

end Sys2Proof.Machine
end

section
/-! The encoding (family `30_encoding.md`): decoding and encoding are inverse to each other, and the frames that
spell no command are those with a reserved code. -/

namespace Sys2Proof

section
variable {f : Frame}

theorem mkFrame_of_cmd {cmd : BitVec 8} (h : f.cmd = cmd) : mkFrame cmd f.p f.q = f := by
  rw [← h, mkFrame_fields]

/-! The unit code `cmd[7:5]` selects the unit (rule R81). -/

theorem unitCode_toNat (cmd : BitVec 8) : (cmd.extractLsb' 5 3).toNat = cmd.toNat / 32 := by
  have hlt := cmd.isLt
  rw [BitVec.extractLsb'_toNat, Nat.shiftRight_eq_div_pow]
  omega

theorem decode_of_registerFile (h : f.cmd.extractLsb' 5 3 = 0#3) : decode f = decodeRegisterFile f := by
  simp [decode, h]

theorem decode_of_memoryStore (h : f.cmd.extractLsb' 5 3 = 1#3) : decode f = decodeMemoryStore f := by
  simp [decode, h]

theorem decode_of_alu (h : f.cmd.extractLsb' 5 3 = 2#3) : decode f = .ok (decodeAlu f) := by
  simp [decode, h]

theorem decode_of_signExtender (h : f.cmd.extractLsb' 5 3 = 3#3) : decode f = decodeSignExtender f := by
  simp [decode, h]

/-- The codes with high digit 5 are none of the sixteen exact codes of the ALU (rule R92). -/
theorem decodeAlu_of_unknown (h : f.cmd.extractLsb' 4 4 = 5#4) :
    decodeAlu f = .aluUnknown (f.cmd.extractLsb' 0 4) f.p f.q := by
  have other_code : ∀ code : BitVec 8, code.extractLsb' 4 4 ≠ 5#4 → f.cmd ≠ code :=
    fun code hcode heq => hcode (heq ▸ h)
  simp [decodeAlu, other_code]

/-- The three bit fields of a code of `ALU.UNKNOWN`: its unit, its high digit and its low digit. -/
theorem unknownCode_fields : ∀ code : BitVec 4,
    (0x5#4 ++ code : BitVec 8).extractLsb' 5 3 = 2#3 ∧ (0x5#4 ++ code : BitVec 8).extractLsb' 4 4 = 5#4 ∧
      (0x5#4 ++ code : BitVec 8).extractLsb' 0 4 = code := by
  decide

/-- Decoding gives back every command whose integer fits its field: the case is the command, and each goes to
its unit first. -/
theorem decode_encode {i : Instr} (h : i.wf = true) : decode (encode i) = .ok i := by
  cases i with
  | rfRead index ignored =>
    rw [encode, decode_of_registerFile (by simp)]
    simp [decodeRegisterFile, bv64_toInt_of_fits h]
  | rfWrite index value =>
    rw [encode, decode_of_registerFile (by simp)]
    simp [decodeRegisterFile, bv64_toInt_of_fits h]
  | rfClear p q =>
    rw [encode, decode_of_registerFile (by simp)]
    simp [decodeRegisterFile]
  | memRead | memWrite | memClear | memSnapshot =>
    rw [encode, decode_of_memoryStore (by simp)]
    simp [decodeMemoryStore]
  | aluUnknown code a b =>
    obtain ⟨unit, high, low⟩ := unknownCode_fields code
    rw [encode, decode_of_alu (by rwa [mkFrame_cmd]), decodeAlu_of_unknown (by rwa [mkFrame_cmd])]
    simp [low]
  | seExtend32 ignored value width =>
    rw [encode, decode_of_signExtender (by simp)]
    simp [decodeSignExtender, halves_append, bv64_toInt_of_fits h]
  | seExtend64 value width =>
    rw [encode, decode_of_signExtender (by simp)]
    simp [decodeSignExtender, bv64_toInt_of_fits h]
  | _ =>
    rw [encode, decode_of_alu (by simp)]
    simp [decodeAlu]

/-- Settles O1, by `decode_encode`. -/
theorem decodeOfEncodeIsTheCommand : Obligations.DecodeOfEncodeIsTheCommand :=
  fun _ h => decode_encode h

/-! Encoding gives the frame back, unit by unit. -/

theorem encode_of_decodeRegisterFile {i : Instr} (h : decodeRegisterFile f = .ok i) : encode i = f := by
  unfold decodeRegisterFile at h
  split_ifs at h with hread hwrite hclear <;> cases h
  · rw [encode, bv64_toInt]
    exact mkFrame_of_cmd hread
  · rw [encode, bv64_toInt]
    exact mkFrame_of_cmd hwrite
  · exact mkFrame_of_cmd hclear

theorem encode_of_decodeMemoryStore {i : Instr} (h : decodeMemoryStore f = .ok i) : encode i = f := by
  unfold decodeMemoryStore at h
  split_ifs at h with hread hwrite hclear hsnapshot <;> cases h
  · exact mkFrame_of_cmd hread
  · exact mkFrame_of_cmd hwrite
  · exact mkFrame_of_cmd hclear
  · exact mkFrame_of_cmd hsnapshot

/-- The codes `0x50` to `0x5F` are 5 and their low digit. -/
theorem unknownCode_of_range : ∀ cmd : BitVec 8, 0x50 ≤ cmd.toNat → cmd.toNat < 0x60 →
    0x5#4 ++ cmd.extractLsb' 0 4 = cmd := by
  decide

/-- Each exact code stands in the frame it is read from; past the sixteen only `0x50` to `0x5F` are left. -/
theorem encode_decodeAlu (h : f.cmd.extractLsb' 5 3 = 2#3) : encode (decodeAlu f) = f := by
  have hunit : f.cmd.toNat / 32 = 2 := by rw [← unitCode_toNat, h]; rfl
  unfold decodeAlu
  iterate 16 refine iteInduction (motive := (encode · = f)) mkFrame_of_cmd fun _ => ?_
  exact mkFrame_of_cmd (unknownCode_of_range f.cmd (by bv_omega) (by omega)).symm

theorem encode_of_decodeSignExtender {i : Instr} (h : decodeSignExtender f = .ok i) : encode i = f := by
  unfold decodeSignExtender at h
  split_ifs at h with hnarrow hwide <;> cases h
  · rw [encode, append_halves, bv64_toInt]
    exact mkFrame_of_cmd hnarrow
  · rw [encode, bv64_toInt]
    exact mkFrame_of_cmd hwide

theorem encode_of_decode {i : Instr} (h : decode f = .ok i) : encode i = f := by
  unfold decode at h
  split_ifs at h with registerFile memoryStore alu signExtender
  · exact encode_of_decodeRegisterFile h
  · exact encode_of_decodeMemoryStore h
  · cases h
    exact encode_decodeAlu alu
  · exact encode_of_decodeSignExtender h

/-- Settles O2, by `decode_wf` and `encode_of_decode`. -/
theorem encodeOfDecodeIsTheFrame : Obligations.EncodeOfDecodeIsTheFrame :=
  fun _ _ h => ⟨decode_wf h, encode_of_decode h⟩

/-- Settles O4, by running the decoder on each frame. -/
theorem workedFramesDecode : Obligations.WorkedFramesDecode := by
  unfold Obligations.WorkedFramesDecode
  decide

/-! The frames that spell no command -/

/-- The codes rule R93 reserves. -/
abbrev ReservedCode (cmd : BitVec 8) : Prop :=
  (0x03 ≤ cmd.toNat ∧ cmd.toNat ≤ 0x1F) ∨ (0x24 ≤ cmd.toNat ∧ cmd.toNat ≤ 0x3F) ∨
    (0x62 ≤ cmd.toNat ∧ cmd.toNat ≤ 0x7F) ∨ 0x80 ≤ cmd.toNat

theorem decodeRegisterFile_error_iff :
    (∃ why, decodeRegisterFile f = .error why) ↔ f.cmd ≠ 0x00#8 ∧ f.cmd ≠ 0x01#8 ∧ f.cmd ≠ 0x02#8 := by
  unfold decodeRegisterFile
  split_ifs <;> simp [*]

theorem decodeMemoryStore_error_iff :
    (∃ why, decodeMemoryStore f = .error why) ↔
      f.cmd ≠ 0x20#8 ∧ f.cmd ≠ 0x21#8 ∧ f.cmd ≠ 0x22#8 ∧ f.cmd ≠ 0x23#8 := by
  unfold decodeMemoryStore
  split_ifs <;> simp [*]

theorem decodeSignExtender_error_iff :
    (∃ why, decodeSignExtender f = .error why) ↔ f.cmd ≠ 0x60#8 ∧ f.cmd ≠ 0x61#8 := by
  unfold decodeSignExtender
  split_ifs <;> simp [*]

/-- Unit by unit: each rejects the codes of its own range it has no command for, the ALU none, and every code of
a unit above 3 is rejected. -/
theorem decode_error_iff : (∃ why, decode f = .error why) ↔ ReservedCode f.cmd := by
  have hunit := unitCode_toNat f.cmd
  unfold decode
  split_ifs with registerFile memoryStore alu signExtender
  · rw [registerFile] at hunit
    rw [decodeRegisterFile_error_iff]
    bv_omega
  · rw [memoryStore] at hunit
    rw [decodeMemoryStore_error_iff]
    bv_omega
  · rw [alu] at hunit
    simp only [exists_false, false_iff]
    bv_omega
  · rw [signExtender] at hunit
    rw [decodeSignExtender_error_iff]
    bv_omega
  · simp only [Except.error.injEq, exists_eq', true_iff]
    bv_omega

theorem decode_ok_or_reserved (f : Frame) : (∃ i, decode f = .ok i) ∨ ReservedCode f.cmd := by
  cases h : decode f with
  | ok i => exact .inl ⟨i, rfl⟩
  | error why => exact .inr (decode_error_iff.1 ⟨why, h⟩)

/-! The command table (rule R95) -/

open Laws.EncodeSpellsRow in
/-- Every command's frame spells the row of the command's name. -/
theorem encode_spells_row (i : Instr) : Statement i :=
  i.casesOn rfRead rfWrite rfClear memRead memWrite memClear memSnapshot aluAdd aluSub aluAnd aluOrr aluEor
    aluLsl aluLsr aluAsr aluMov aluPassA aluMul aluSmulh aluUmulh aluSdiv aluUdiv aluIdle aluUnknown
    seExtend32 seExtend64

/-- No row takes a reserved code: each row but one takes its own code only, and the row of `ALU.UNKNOWN` takes
`0x50` to `0x5F` (rule R92). -/
theorem not_reserved_of_spells {row : CommandRow} (hrow : row ∈ commandTable) (h : row.spells f = true) :
    ¬ReservedCode f.cmd := by
  have table : ∀ row ∈ commandTable, (row.cmdMask = BitVec.allOnes 8 ∧ ¬ReservedCode row.cmdMatch) ∨
      (row.cmdMask = 0xF0#8 ∧ row.cmdMatch = 0x50#8) := by decide
  have unknown_codes : ∀ cmd : BitVec 8, cmd &&& 0xF0#8 = 0x50#8 → ¬ReservedCode cmd := by decide
  simp only [CommandRow.spells, beq_iff_eq] at h
  rcases table row hrow with ⟨hmask, hcode⟩ | ⟨hmask, hcode⟩
  · rw [hmask, BitVec.and_allOnes] at h
    rwa [h]
  · rw [hmask, hcode] at h
    exact unknown_codes f.cmd h

/-- A code that two rows take is the code of one row only: the rows agree on the bits that both look at. -/
theorem row_unique {row row' : CommandRow} (h : row ∈ commandTable) (h' : row' ∈ commandTable)
    (hf : row.spells f = true) (hf' : row'.spells f = true) : row = row' := by
  have table : ∀ row ∈ commandTable, ∀ row' ∈ commandTable,
      row.cmdMatch &&& row'.cmdMask = row'.cmdMatch &&& row.cmdMask → row = row' := by decide
  simp only [CommandRow.spells, beq_iff_eq] at hf hf'
  refine table row h row' h' ?_
  rw [← hf, ← hf', BitVec.and_assoc, BitVec.and_assoc, BitVec.and_comm row.cmdMask]

theorem row_unique_of_mnemonic : ∀ row ∈ commandTable, ∀ row' ∈ commandTable,
    row.mnemonic = row'.mnemonic → row = row' := by
  decide

/-- Settles O3: a decoded frame is the frame of its command and spells that command's row, which is the only one;
a frame is rejected where its code is reserved, and those are the codes of no row. -/
theorem decoderFollowsCommandTable : Obligations.DecoderFollowsCommandTable := by
  have own_row {f : Frame} {i : Instr} (h : decode f = .ok i) :
      ∃ row ∈ commandTable, row.mnemonic = i.mnemonic ∧ row.spells f = true :=
    encode_of_decode h ▸ encode_spells_row i
  refine fun f => ⟨fun i hdecode row hrow => ?_, ?_⟩
  · obtain ⟨own, hown, hname, hspells⟩ := own_row hdecode
    constructor
    · intro h
      rw [row_unique hrow hown h hspells, hname]
    · intro h
      rwa [row_unique_of_mnemonic row hrow own hown (h.trans hname.symm)]
  · rw [decode_error_iff]
    constructor
    · exact fun hreserved row hrow =>
        Bool.eq_false_iff.2 fun h => not_reserved_of_spells hrow h hreserved
    · intro hnone
      rcases decode_ok_or_reserved f with ⟨i, hdecode⟩ | hreserved
      · obtain ⟨own, hown, -, hspells⟩ := own_row hdecode
        exact absurd hspells (Bool.eq_false_iff.1 (hnone own hown))
      · exact hreserved

end

end Sys2Proof
end

section
/-! What a command answers (family `30_encoding.md`): the refusal of a reserved code, the ignored fields, the
errors, the number of responses and the response frames. -/

namespace Sys2Proof.Machine

/-- A step with a frame next is refused exactly where the frame spells no command: a command that is performed
completes. -/
theorem step_refused_iff {s : State} {f : Frame} {rest : List Input} (hin : s.inputs = .command f :: rest) :
    (∃ why, step s = .refused (.invalidCommand why)) ↔ ∃ why, decode f = .error why := by
  cases hf : decode f with
  | ok i =>
    obtain ⟨t, ht, -⟩ := exec_completes i { s with inputs := rest }
    simp [step_command hin hf, ht]
  | error why => simp [step_invalid hin hf]

/-- Settles O7: a step refuses what the decoder rejects. -/
theorem stepRefusesExactlyReservedCodes : Obligations.StepRefusesExactlyReservedCodes :=
  fun _ _ _ hin => (step_refused_iff hin).trans decode_error_iff

/-! Ignored fields -/

/-- The two states hold the same block and inputs, and have given the same responses up to the echoed frames of
errors. -/
def SameButEcho (s t : State) : Prop :=
  s.slot = t.slot ∧ s.mem = t.mem ∧ s.inputs = t.inputs ∧
    s.responses.map Response.withoutEcho = t.responses.map Response.withoutEcho

theorem SameButEcho.refl (s : State) : SameButEcho s s := ⟨rfl, rfl, rfl, rfl⟩

theorem SameButEcho.symm {s t : State} : SameButEcho s t → SameButEcho t s :=
  fun ⟨hslot, hmem, hinputs, hresponses⟩ => ⟨hslot.symm, hmem.symm, hinputs.symm, hresponses.symm⟩

theorem SameButEcho.trans {s t u : State} : SameButEcho s t → SameButEcho t u → SameButEcho s u :=
  fun ⟨hslot, hmem, hinputs, hresponses⟩ ⟨hslot', hmem', hinputs', hresponses'⟩ =>
    ⟨hslot.trans hslot', hmem.trans hmem', hinputs.trans hinputs', hresponses.trans hresponses'⟩

/-- Two commands with the same operand check and the same meaning behind it differ in the echo of an error only. -/
theorem guarded_sameButEcho {α : Type} (i j : Instr) (s : State) (check : Except ErrorKind α) {go : α → Result}
    (hgo : ∀ x, ∃ t, go x = .next t) :
    ∃ t u, guarded i s check go = .next t ∧ guarded j s check go = .next u ∧ SameButEcho t u := by
  cases check with
  | error kind => exact ⟨_, _, guarded_error i s kind go, guarded_error j s kind go, rfl, rfl, rfl, rfl⟩
  | ok x =>
    obtain ⟨t, ht⟩ := hgo x
    exact ⟨t, t, ht, ht, .refl t⟩

/-- A command and the one with zeros in the ignored fields: three commands have a check and an ignored field, and
every other has one meaning with its canonical form. -/
theorem exec_canonical (i : Instr) (s : State) :
    ∃ t u, exec i s = .next t ∧ exec i.canonical s = .next u ∧ SameButEcho t u := by
  cases hi : i with
  | rfRead index ignored => exact guarded_sameButEcho _ _ s _ fun _ => ⟨_, rfl⟩
  | memRead address ignored => exact guarded_sameButEcho _ _ s _ fun _ => ⟨_, rfl⟩
  | seExtend32 ignored value width => exact guarded_sameButEcho _ _ s _ fun _ => ⟨_, rfl⟩
  | _ =>
    obtain ⟨t, ht, -⟩ := exec_completes i s
    subst hi
    exact ⟨t, t, ht, ht, .refl t⟩

/-- Settles O5: both commands do what their one canonical command does. -/
theorem ignoredFieldsHaveNoEffect : Obligations.IgnoredFieldsHaveNoEffect := by
  intro i j s hcanonical
  obtain ⟨t, u, ht, hu, htu⟩ := exec_canonical i s
  obtain ⟨t', u', ht', hu', htu'⟩ := exec_canonical j s
  rw [hcanonical] at hu
  obtain rfl := Host.Outcome.next.inj (hu.symm.trans hu')
  exact ⟨t, t', ht, ht', htu.trans htu'.symm⟩

/-! Errors -/

/-- Which error a command's operand check finds: every row of the taxonomy this block can drive, with its
condition (rules R252 to R255). -/
inductive Raises : Instr → ErrorKind → Prop
  | readIndex {index : Int} {ignored : Word} : ¬(0 ≤ index ∧ index ≤ 31) →
      Raises (.rfRead index ignored) (.invalidRegisterIndex index .read)
  | writeIndex {index : Int} {value : Word} : ¬(0 ≤ index ∧ index ≤ 31) →
      Raises (.rfWrite index value) (.invalidRegisterIndex index .write)
  | readAddress {address ignored : Word} : address.msb = true →
      Raises (.memRead address ignored) (.negativeAddress address.toInt)
  | writeAddress {address value : Word} : address.msb = true →
      Raises (.memWrite address value) (.negativeAddress address.toInt)
  | narrowWidth {ignored value : BitVec 32} {width : Int} : ¬(1 ≤ width ∧ width ≤ Config.narrowWidth) →
      Raises (.seExtend32 ignored value width) (.invalidBitWidth width)
  | wideWidth {value : Word} {width : Int} : ¬(1 ≤ width ∧ width ≤ Config.wideWidth) →
      Raises (.seExtend64 value width) (.invalidBitWidth width)
  | signedDivisor {a : Word} : Raises (.aluSdiv a 0#64) (.divisionByZero a 0#64)
  | unsignedDivisor {a : Word} : Raises (.aluUdiv a 0#64) (.divisionByZero a 0#64)

/-- The command completes without an error, or answers the error its check finds with its own frame and changes
nothing else. -/
def SucceedsOrRaises (i : Instr) (s : State) (x : Result) : Prop :=
  (∃ u r, x = .next (State.respond u r) ∧ r.isError = false) ∨
    ∃ kind, Raises i kind ∧ x = .next (s.answered (.error kind (encode i)))

section
variable {kind : ErrorKind}

theorem registerIndex_error {index : Int} {access : RegisterAccess}
    (h : registerIndex index access = .error kind) :
    ¬(0 ≤ index ∧ index ≤ 31) ∧ kind = .invalidRegisterIndex index access := by
  rcases registerIndex_cases index access with ⟨j, -, hok⟩ | ⟨hindex, herror⟩
  · cases hok.symm.trans h
  · exact ⟨hindex, (Except.error.inj (herror.symm.trans h)).symm⟩

theorem memoryKey_error {a : Word} (h : memoryKey a = .error kind) :
    a.msb = true ∧ kind = .negativeAddress a.toInt := by
  rcases memoryKey_cases a with ⟨-, -, hok⟩ | ⟨hneg, herror⟩
  · cases hok.symm.trans h
  · exact ⟨hneg, (Except.error.inj (herror.symm.trans h)).symm⟩

theorem divisor_error {a b : Word} (h : divisor a b = .error kind) :
    b = 0#64 ∧ kind = .divisionByZero a b := by
  rcases divisor_cases a b with ⟨-, hok⟩ | ⟨hzero, herror⟩
  · cases hok.symm.trans h
  · exact ⟨hzero, (Except.error.inj (herror.symm.trans h)).symm⟩

theorem extendWidth_error {native : Nat} {width : Int} (h : extendWidth native width = .error kind) :
    ¬(1 ≤ width ∧ width ≤ native) ∧ kind = .invalidBitWidth width := by
  rcases extendWidth_cases native width with ⟨n, -, -, -, hok⟩ | ⟨hwidth, herror⟩
  · cases hok.symm.trans h
  · exact ⟨hwidth, (Except.error.inj (herror.symm.trans h)).symm⟩

end

/-- A command behind its check raises what the check finds and succeeds otherwise. -/
theorem guarded_succeedsOrRaises {α : Type} {i : Instr} {s : State} {check : Except ErrorKind α}
    {go : α → Result} (hcheck : ∀ kind, check = .error kind → Raises i kind)
    (hgo : ∀ x, ∃ u r, go x = .next (State.respond u r) ∧ r.isError = false) :
    SucceedsOrRaises i s (guarded i s check go) := by
  cases check with
  | error kind => exact .inr ⟨kind, hcheck kind rfl, guarded_error i s kind go⟩
  | ok x => exact .inl (hgo x)

theorem exec_succeedsOrRaises (i : Instr) (s : State) : SucceedsOrRaises i s (exec i s) := by
  cases i with
  | rfRead index ignored =>
    refine guarded_succeedsOrRaises (fun kind h => ?_) fun _ => ⟨_, _, rfl, rfl⟩
    obtain ⟨hindex, rfl⟩ := registerIndex_error h
    exact .readIndex hindex
  | rfWrite index value =>
    refine guarded_succeedsOrRaises (fun kind h => ?_) fun _ => ⟨_, _, rfl, rfl⟩
    obtain ⟨hindex, rfl⟩ := registerIndex_error h
    exact .writeIndex hindex
  | memRead address ignored =>
    refine guarded_succeedsOrRaises (fun kind h => ?_) fun _ => ⟨_, _, rfl, rfl⟩
    obtain ⟨hneg, rfl⟩ := memoryKey_error h
    exact .readAddress hneg
  | memWrite address value =>
    refine guarded_succeedsOrRaises (fun kind h => ?_) fun _ => ⟨_, _, rfl, rfl⟩
    obtain ⟨hneg, rfl⟩ := memoryKey_error h
    exact .writeAddress hneg
  | aluSdiv a b =>
    refine guarded_succeedsOrRaises (fun kind h => ?_) fun _ => ⟨_, _, rfl, rfl⟩
    obtain ⟨rfl, rfl⟩ := divisor_error h
    exact .signedDivisor
  | aluUdiv a b =>
    refine guarded_succeedsOrRaises (fun kind h => ?_) fun _ => ⟨_, _, rfl, rfl⟩
    obtain ⟨rfl, rfl⟩ := divisor_error h
    exact .unsignedDivisor
  | seExtend32 ignored value width =>
    refine guarded_succeedsOrRaises (fun kind h => ?_) fun _ => ⟨_, _, rfl, rfl⟩
    obtain ⟨hwidth, rfl⟩ := extendWidth_error h
    exact .narrowWidth hwidth
  | seExtend64 value width =>
    refine guarded_succeedsOrRaises (fun kind h => ?_) fun _ => ⟨_, _, rfl, rfl⟩
    obtain ⟨hwidth, rfl⟩ := extendWidth_error h
    exact .wideWidth hwidth
  | _ => exact .inl ⟨_, _, rfl, rfl⟩

/-- Where the newest response after a command is an error, it is one that the command's check finds, with the
command's own frame, and nothing else has changed. -/
theorem exec_error {i : Instr} {s t : State} {kind : ErrorKind} {f : Frame} {earlier : List Response}
    (h : exec i s = .next t) (herror : t.responses = .error kind f :: earlier) :
    Raises i kind ∧ f = encode i ∧ t = s.answered (.error kind f) := by
  rcases exec_succeedsOrRaises i s with ⟨u, r, hu, hr⟩ | ⟨kind', hraises, hu⟩
  · obtain rfl := Host.Outcome.next.inj (h.symm.trans hu)
    obtain rfl := (List.cons.inj herror).1
    simp [Response.isError] at hr
  · obtain rfl := Host.Outcome.next.inj (h.symm.trans hu)
    obtain ⟨rfl, rfl⟩ := Response.error.inj (List.cons.inj herror).1
    exact ⟨hraises, rfl, rfl⟩

/-- Settles O29, by `exec_error`. -/
theorem errorsChangeNothing : Obligations.ErrorsChangeNothing :=
  fun _ _ _ _ _ _ h herror => (exec_error h herror).2

/-- The frame of a well-formed command holds the context of each error the command can raise (rule R90). -/
theorem errorContext_encode {i : Instr} {kind : ErrorKind} (hwf : i.wf = true) (h : Raises i kind) :
    errorContext kind.code (encode i) = some kind := by
  cases h with
  | readIndex | writeIndex => simp [errorContext, ErrorKind.code, encode, bv64_toInt_of_fits hwf]
  | readAddress | writeAddress => simp [errorContext, ErrorKind.code, encode]
  | narrowWidth | wideWidth => simp [errorContext, ErrorKind.code, encode, bv64_toInt_of_fits hwf]
  | signedDivisor | unsignedDivisor => simp [errorContext, ErrorKind.code, encode]

/-- Settles O30: the error is one the command's check finds, and its frame is the echo. -/
theorem errorContextIsInTheEcho : Obligations.ErrorContextIsInTheEcho := by
  intro i s t kind f hwf h herror
  obtain ⟨hraises, rfl, -⟩ := exec_error h herror
  exact errorContext_encode hwf hraises

/-! The answers of a run -/

/-- From `s` to `t` no answer is withdrawn, and the new answers with the commands still to come are as many as the
commands that were to come. -/
def AnsweredSince (s t : State) : Prop :=
  ∃ new, t.responses = new ++ s.responses ∧ new.length + commandCount t.inputs = commandCount s.inputs

theorem AnsweredSince.refl (s : State) : AnsweredSince s s := ⟨[], rfl, Nat.zero_add _⟩

theorem AnsweredSince.trans {s t u : State} : AnsweredSince s t → AnsweredSince t u → AnsweredSince s u := by
  rintro ⟨old, hold, holdCount⟩ ⟨new, hnew, hnewCount⟩
  refine ⟨new ++ old, by rw [hnew, hold, List.append_assoc], ?_⟩
  rw [List.length_append]
  omega

/-- A command answers once and takes no input. -/
theorem exec_answers_once {i : Instr} {s t : State} (h : exec i s = .next t) :
    ∃ r, t.responses = r :: s.responses ∧ t.inputs = s.inputs := by
  obtain ⟨u, r, hu, -, -, effect⟩ := exec_cases i s
  obtain rfl := Host.Outcome.next.inj (h.symm.trans hu)
  refine ⟨r, ?_⟩
  rcases effect with ⟨rfl, -⟩ | ⟨j, v, -, rfl⟩ | ⟨p, q, -, rfl⟩ | ⟨a, v, -, -, rfl⟩ | ⟨p, q, -, rfl⟩ <;>
    exact ⟨rfl, rfl⟩

/-- A step answers its command once, and a reset event not at all. -/
theorem step_answers {s t : State} (h : step s = .next t) : AnsweredSince s t := by
  obtain ⟨input, rest, hin, ⟨rfl, rfl⟩ | ⟨f, i, rfl, -, hexec⟩⟩ := step_next_cases h
  · exact ⟨[], rfl, by simp [hin, commandCount]⟩
  · obtain ⟨r, hresponses, hinputs⟩ := exec_answers_once hexec
    exact ⟨[r], hresponses, by simp [hin, hinputs, commandCount, Nat.add_comm]⟩

/-- Settles O24: every step keeps the sum of `AnsweredSince`, and when the run has taken every input no command is
to come. -/
theorem runAnswersEveryCommand : Obligations.RunAnswersEveryCommand := by
  intro s hvalid
  obtain ⟨t, hrun, hdone⟩ := run_completes hvalid
  obtain ⟨new, hnew, hcount⟩ : AnsweredSince s t :=
    run_keeps (P := AnsweredSince s) (fun hs hstep => hs.trans (step_answers hstep)) (.refl s) hrun
  exact ⟨t, new, hrun, hnew, by simpa [hdone, commandCount] using hcount⟩

/-! The register dump -/

/-- The input that carries a read of this register. -/
def readInput (j : Fin 32) : Input := .command (encode (.rfRead j.val 0))

theorem exec_rfRead_fin (j : Fin 32) (ignored : Word) (s : State) :
    exec (.rfRead j.val ignored) s = .next (s.respond (.result (s.readReg j))) := by
  simp only [exec, execRfRead, registerIndex_fin, guarded_ok, complete_eq]

theorem step_readInput {s : State} {j : Fin 32} {rest : List Input} (hin : s.inputs = readInput j :: rest) :
    step s = .next (State.respond { s with inputs := rest } (.result (s.readReg j))) := by
  have hfits : (Instr.rfRead j.val 0).wf = true := by
    simp only [Instr.wf, fitsSigned64, decide_eq_true_eq]
    omega
  rw [step_command hin (decode_encode hfits), exec_rfRead_fin]
  rfl

/-- Reads of any registers, one after the other, answer their values in order and change nothing else. -/
theorem run_readInputs (js : List (Fin 32)) {s : State} {rest : List Input}
    (hin : s.inputs = js.map readInput ++ rest) :
    core.run js.length s = .next
      { slot := s.slot, mem := s.mem, inputs := rest,
        responses := (js.map fun j => Response.result (s.readReg j)).reverse ++ s.responses } := by
  induction js generalizing s with
  | nil =>
    obtain rfl : s.inputs = rest := hin
    exact run_zero s
  | cons j js ih =>
    rw [List.length_cons, run_next (step_readInput hin), ih rfl]
    simp [State.readReg_eq]

theorem registerDump_inputs : registerDump.map (fun i => Input.command (encode i)) =
    (List.finRange 32).map readInput :=
  rfl

/-- Settles O27: the dump is the reads of all registers in order. -/
theorem registerDumpShowsEveryRegister : Obligations.RegisterDumpShowsEveryRegister := by
  intro s rest hin
  rw [registerDump_inputs] at hin
  exact run_readInputs (List.finRange 32) hin

/-! The response frames (rule R89) -/

section
variable (err : BitVec 4) (unk n z c v : Bool) (r : Word)

theorem mkResponseFrame_err : (mkResponseFrame err unk n z c v r).extractLsb' 69 4 = err := by
  simp only [mkResponseFrame]
  iterate 6 rw [BitVec.extractLsb'_append_eq_of_le (by decide)]
  exact BitVec.extractLsb'_eq_self

theorem mkResponseFrame_result : (mkResponseFrame err unk n z c v r).extractLsb' 0 64 = r :=
  BitVec.extractLsb'_append_eq_right

theorem mkResponseFrame_flags :
    (mkResponseFrame err unk n z c v r).getLsbD 68 = unk ∧ (mkResponseFrame err unk n z c v r).getLsbD 67 = n ∧
      (mkResponseFrame err unk n z c v r).getLsbD 66 = z ∧ (mkResponseFrame err unk n z c v r).getLsbD 65 = c ∧
      (mkResponseFrame err unk n z c v r).getLsbD 64 = v := by
  simp only [mkResponseFrame, BitVec.getLsbD_append]
  simp

/-- A response without flags and without an error is its result alone. -/
theorem mkResponseFrame_plain_toNat :
    (mkResponseFrame 0 false false false false false r).toNat = r.toNat := by
  simp only [mkResponseFrame, BitVec.toNat_append]
  simp

/-- The field `err` of a response frame is the code of the response (rule R251). -/
theorem frame_err (r : Response) : r.frame.extractLsb' 69 4 = r.err := by
  cases r <;> exact mkResponseFrame_err _ _ _ _ _ _ _

/-- Reading the entry frames back gives the entries, whose keys fit their field (rule R91). -/
theorem map_entryFrames {es : List (Nat × Word)} (h : Memory.wf es) :
    (Response.snapshot es).entryFrames.map (fun e => ((e.extractLsb' 64 64).toNat, e.extractLsb' 0 64))
      = es := by
  rw [Response.entryFrames, List.map_map]
  refine (List.map_congr_left fun e he => ?_).trans (List.map_id es)
  have hkey : e.1 < 2 ^ 64 := (h.2 e he).trans (by decide)
  have hhigh := BitVec.extractLsb'_append_eq_left (a := BitVec.ofNat 64 e.1) (b := e.2)
  have hlow := BitVec.extractLsb'_append_eq_right (a := BitVec.ofNat 64 e.1) (b := e.2)
  simp only [Function.comp_apply, id_eq]
  rw [hhigh, hlow, BitVec.toNat_ofNat, Nat.mod_eq_of_lt hkey]

end

/-- Settles O58: each field by its lemma above; every response frame is one `mkResponseFrame`. -/
theorem responseFramesFollowTheLayout : Obligations.ResponseFramesFollowTheLayout := by
  refine ⟨fun o => ?_, frame_err, fun w => mkResponseFrame_plain_toNat w, rfl, fun es hwf => ?_⟩
  · obtain ⟨hunk, hn, hz, hc, hv⟩ :=
      mkResponseFrame_flags 0 o.unknown o.negative o.zero o.carry o.overflow o.result
    exact ⟨mkResponseFrame_err _ _ _ _ _ _ _, hunk, hn, hz, hc, hv, mkResponseFrame_result _ _ _ _ _ _ _⟩
  · exact ⟨mkResponseFrame_result _ _ _ _ _ _ _, map_entryFrames hwf⟩

/-- Settles O52: the outcome is the marker's, whatever the code and the operands. -/
theorem unknownAnswersMarker : Obligations.UnknownAnswersMarker :=
  fun _ _ _ _ => ⟨rfl, markerOutcome true, rfl, rfl, rfl, rfl, rfl, rfl, rfl⟩

end Sys2Proof.Machine
end

section
/-! The register file (family `40_register_file.md`): each command at a legal index is one read or one write of the
state, and outside 0 to 31 the index check answers for both. -/

namespace Sys2Proof.Machine

/-- Outside 0 to 31 the index check fails (rule R252). -/
theorem registerIndex_of_out_of_range {index : Int} (h : index < 0 ∨ 31 < index) (access : RegisterAccess) :
    registerIndex index access = .error (.invalidRegisterIndex index access) := by
  rcases registerIndex_cases index access with ⟨i, rfl, -⟩ | ⟨-, herror⟩
  · omega
  · exact herror

theorem rfRead_error {index : Int} (h : index < 0 ∨ 31 < index) (ignored : Word) (s : State) :
    AnswersError (.rfRead index ignored) s (.invalidRegisterIndex index .read) := by
  rw [AnswersError, exec, execRfRead, registerIndex_of_out_of_range h, guarded_error]
  rfl

theorem rfWrite_error {index : Int} (h : index < 0 ∨ 31 < index) (value : Word) (s : State) :
    AnswersError (.rfWrite index value) s (.invalidRegisterIndex index .write) := by
  rw [AnswersError, exec, execRfWrite, registerIndex_of_out_of_range h, guarded_error]
  rfl

theorem State.writeReg_respond (s : State) (r : Response) (i : Fin 32) (v : Word) :
    (s.respond r).writeReg i v = (s.writeReg i v).respond r := rfl

/-- The registers after two writes at one index: the last write wins (law (e) of rule R123). -/
theorem State.readReg_writeReg_writeReg (s : State) (i j : Fin 32) (v w : Word) :
    ((s.writeReg i v).writeReg i w).readReg j =
      if j.val = 31 then 0#64 else if j = i then w else s.readReg j := by
  rw [State.readReg_writeReg, State.readReg_writeReg]
  split
  · rfl
  · split <;> rfl

/-- Settles O11: a legal index is one `State.writeReg`, whose slots `State.slot_writeReg` gives. -/
theorem rfWriteStoresOneSlot : Obligations.RfWriteStoresOneSlot := by
  intro index value s
  refine ⟨rfl, ?_, fun hout => rfWrite_error hout value s⟩
  rintro i rfl
  have stored : (s.writeReg i value).slot[i] = value := by rw [State.slot_writeReg, if_pos rfl]
  have kept (j : Fin 32) (hj : j ≠ i) : (s.writeReg i value).slot[j] = s.slot[j] := by
    rw [State.slot_writeReg, if_neg hj]
  exact ⟨_, exec_rfWrite_fin i value s, stored, kept, rfl, rfl, rfl⟩

/-- Settles O13: the commands are reads and writes of the state, and the responses between them change no
register. -/
theorem registerReadAfterWrite : Obligations.RegisterReadAfterWrite := by
  intro i j v w ignored s
  refine ⟨_, _, exec_rfWrite_fin i v s, exec_rfWrite_fin i w _, ?_, ?_⟩
  · rw [exec_rfRead_fin, State.readReg_respond, State.readReg_writeReg]
    rfl
  · rw [exec_rfRead_fin, State.writeReg_respond, State.readReg_respond, State.readReg_respond,
      State.readReg_writeReg_writeReg]
    rfl

/-- Settles O10: a legal index is one `State.readReg`, which is 0 for register 31 and the slot for any other. -/
theorem rfReadAnswersRegister : Obligations.RfReadAnswersRegister := by
  intro index ignored s
  refine ⟨rfl, ?_, ?_, fun hout => rfRead_error hout ignored s⟩
  · rintro i rfl hi
    rw [exec_rfRead_fin, State.readReg_eq, if_neg hi]
    rfl
  · rintro rfl
    exact exec_rfRead_fin 31 ignored s

/-- Settles O12: the command has no check, and the slots it leaves are a replicated 0. -/
theorem rfClearZeroesEverySlot : Obligations.RfClearZeroesEverySlot := by
  intro p q s
  have zeroed (i : Fin 32) : s.clearRegs.slot[i] = 0#64 := by simp
  exact ⟨rfl, s.clearRegs.respond .done, rfl, zeroed, rfl, rfl, rfl⟩

end Sys2Proof.Machine
end

section
/-! The memory store (family `41_memory_store.md`): each command at an address that is not negative is one read or one
write of the map at that key, and at a negative address the key check answers for both. -/

namespace Sys2Proof.Machine

/-- At a negative address the key check fails (rule R253). -/
theorem memoryKey_of_neg {a : Word} (h : a.toInt < 0) : memoryKey a = .error (.negativeAddress a.toInt) := by
  rcases memoryKey_cases a with ⟨hmsb, -, -⟩ | ⟨-, herror⟩
  · simp [(toInt_neg_iff a).1 h] at hmsb
  · exact herror

theorem memRead_error {a : Word} (h : a.toInt < 0) (ignored : Word) (s : State) :
    AnswersError (.memRead a ignored) s (.negativeAddress a.toInt) := by
  rw [AnswersError, exec, execMemRead, memoryKey_of_neg h, guarded_error]
  rfl

theorem memWrite_error {a : Word} (h : a.toInt < 0) (value : Word) (s : State) :
    AnswersError (.memWrite a value) s (.negativeAddress a.toInt) := by
  rw [AnswersError, exec, execMemWrite, memoryKey_of_neg h, guarded_error]
  rfl

/-- A key without an entry reads as the implicit 0 (rule R30). -/
theorem Memory.read_of_absent {m : Memory} {a : Nat} (h : ∀ w, (a, w) ∉ m) : m.read a = 0#64 := by
  induction m with
  | nil => rfl
  | cons e rest ih =>
    obtain ⟨k, w⟩ := e
    have hk : k ≠ a := fun heq => h w (heq ▸ List.mem_cons_self)
    rw [Memory.read, if_neg hk]
    exact ih fun w' hw' => h w' (List.mem_cons_of_mem _ hw')

/-- Settles O18: the command has no check, and the map it leaves is the empty one. -/
theorem memClearErasesEveryKey : Obligations.MemClearErasesEveryKey := by
  intro p q s
  have erased (k : Nat) : s.clearMem.mem.present k = false ∧ s.clearMem.mem.read k = 0#64 :=
    ⟨Memory.present_nil k, Memory.read_clear s k⟩
  exact ⟨rfl, s.clearMem.respond .done, rfl, erased, rfl, rfl, rfl⟩

/-- Settles O16: a canonical map has at most one entry of the key, and without one the key reads 0. -/
theorem memReadAnswersWord : Obligations.MemReadAnswersWord := by
  intro address ignored s hwf
  refine ⟨rfl, fun hnonneg => ?_, fun hneg => memRead_error hneg ignored s⟩
  exact ⟨_, exec_memRead_of_msb_false (msb_false_of_nonneg hnonneg) ignored s,
    fun v => Memory.read_of_mem hwf, Memory.read_of_absent⟩

/-- Settles O17: one `Memory.write`, which says of every key what is read there and whether it is present. -/
theorem memWriteStoresOneKey : Obligations.MemWriteStoresOneKey := by
  intro address value s
  refine ⟨rfl, fun hnonneg => ?_, fun hneg => memWrite_error hneg value s⟩
  have present : (s.mem.write address.toNat value).present address.toNat = true := by
    rw [Memory.present_write, beq_self_eq_true, Bool.true_or]
  have kept (k : Nat) (hk : k ≠ address.toNat) :
      (s.mem.write address.toNat value).read k = s.mem.read k ∧
        (s.mem.write address.toNat value).present k = s.mem.present k := by
    refine ⟨Memory.read_write_other s.mem value hk, ?_⟩
    rw [Memory.present_write, beq_false_of_ne hk.symm, Bool.false_or]
  exact ⟨_, exec_memWrite_of_msb_false (msb_false_of_nonneg hnonneg) value s,
    Memory.read_write_same s.mem address.toNat value, present, kept, rfl, rfl, rfl⟩

/-- Settles O19: the answer is the canonical list itself. -/
theorem memSnapshotListsPresentKeys : Obligations.MemSnapshotListsPresentKeys := by
  intro p q s hwf
  exact ⟨rfl, s.mem.snapshot, rfl, hwf.1, Memory.mem_snapshot_iff hwf⟩

/-- A key that holds 0 still holds 0 after inputs that do not write it: a clear and a reset leave 0 too. -/
theorem latestWord_zero_of_no_write {k : Nat} {inputs : List Input}
    (h : ∀ x ∈ inputs, ∀ a v, x.command? = some (.memWrite a v) → a.toNat ≠ k) :
    latestWord k inputs 0 = 0 := by
  induction inputs with
  | nil => rfl
  | cons x rest ih =>
    obtain ⟨hx, hrest⟩ := List.forall_mem_cons.1 h
    cases x with
    | reset => exact ih hrest
    | command f =>
      cases hf : decode f with
      | error why => simpa only [latestWord, hf] using ih hrest
      | ok i =>
        cases i with
        | memWrite a v =>
          have hk : a.toNat ≠ k := hx a v (by rw [Input.command?, hf]; rfl)
          simpa only [latestWord, hf, hk, and_false, if_false] using ih hrest
        | memClear p q =>
          rw [latestWord_memClear hf]
          exact ih hrest
        | _ =>
          rw [latestWord_other hf (by simp) (by simp)]
          exact ih hrest

/-- A run that begins with a reset and takes valid inputs without a write to a key leaves 0 there, whatever the
memory held before. -/
theorem run_reset_read_zero (s : State) {k : Nat} {inputs : List Input}
    (hvalid : ∀ x ∈ inputs, x.valid = true)
    (h : ∀ x ∈ inputs, ∀ a v, x.command? = some (.memWrite a v) → a.toNat ≠ k) :
    ∃ t : State, core.run (inputs.length + 1) { s with inputs := .reset :: inputs } = .next t ∧
      t.mem.read k = 0#64 := by
  obtain ⟨t, hrun, -, hword, -⟩ := runLeavesLatestWrites { s with inputs := .reset :: inputs }
    (List.forall_mem_cons.2 ⟨rfl, hvalid⟩)
  exact ⟨t, hrun, (hword k).trans (latestWord_zero_of_no_write h)⟩

/-- Settles O59: (a) is a whole run, (b), (e) and (f) are the reads of the map after its writes, and the others are
what one command does. -/
theorem memoryStoreKeepsItsLaws : Obligations.MemoryStoreKeepsItsLaws := by
  intro s hwf
  have read {a : Word} (ha : 0 ≤ a.toInt) := exec_memRead_of_msb_false (msb_false_of_nonneg ha)
  have write {a : Word} (ha : 0 ≤ a.toInt) := exec_memWrite_of_msb_false (msb_false_of_nonneg ha)
  exact {
    readsZeroBeforeAnyWrite := by
      intro a ignored inputs ha hinputs
      have elsewhere (x : Input) (hx : x ∈ inputs) (b v : Word) (hb : x.command? = some (.memWrite b v)) :
          b.toNat ≠ a.toNat := by
        intro heq
        obtain rfl := BitVec.eq_of_toNat_eq heq
        exact (hinputs x hx).2 v hb
      obtain ⟨t, hrun, hzero⟩ := run_reset_read_zero s (fun x hx => (hinputs x hx).1) elsewhere
      refine ⟨t, hrun, ?_⟩
      rw [read ha, hzero]
      rfl
    readsWhatIsWritten := by
      intro a v ignored ha
      refine ⟨_, write ha v s, ?_⟩
      rw [read ha, State.respond_mem, State.writeMem_mem, Memory.read_write_same]
      rfl
    readsZeroAfterClear := fun a p q ignored ha => ⟨s.clearMem.respond .done, rfl, read ha ignored _⟩
    refusesNegative := fun a v ha => ⟨memRead_error ha v s, memWrite_error ha v s⟩
    writeLeavesOthers := by
      intro a b v ignored ha hb hne
      refine ⟨_, _, write ha v s, read hb ignored s, ?_⟩
      rw [read hb, State.respond_mem, State.writeMem_mem,
        Memory.read_write_other _ _ fun heq => hne (BitVec.eq_of_toNat_eq heq)]
      rfl
    lastWriteWins := by
      intro a v w ignored ha
      refine ⟨_, _, write ha v s, write ha w _, ?_⟩
      rw [read ha, State.respond_mem, State.writeMem_mem, Memory.read_write_same]
      rfl
    readersChangeNothing := by
      intro a p q
      refine ⟨?_, _, rfl⟩
      rcases lt_or_ge a.toInt 0 with hneg | hnonneg
      · exact ⟨_, memRead_error hneg p s⟩
      · exact ⟨_, read hnonneg p s⟩
    snapshotIsTheMap := fun p q => (memSnapshotListsPresentKeys p q s hwf).2 }

end Sys2Proof.Machine
end

section
/-! What an ALU command answers: `AluAnswer` says it once, the fields of each outcome have a lemma of their own, and
the rules on the flags are cases of the two. A command of the pure units answers the same in every state. -/

namespace Sys2Proof

/-! The map `bv64` from integers to words (rule R7) -/

theorem bv64_natCast (n : Nat) : bv64 n = BitVec.ofNat 64 n := BitVec.ofInt_natCast 64 n

theorem toNat_bv64_natCast (n : Nat) : (bv64 n).toNat = n % 2 ^ 64 := by
  rw [bv64_natCast, BitVec.toNat_ofNat]

theorem bv64_toNat (w : Word) : bv64 w.toNat = w := by
  rw [bv64_natCast, BitVec.ofNat_toNat, BitVec.setWidth_eq]

theorem bv64_neg (n : Int) : bv64 (-n) = -bv64 n := BitVec.ofInt_neg

theorem bv64_sub (m n : Int) : bv64 (m - n) = bv64 m - bv64 n := by
  rw [Int.sub_eq_add_neg, BitVec.sub_eq_add_neg, ← bv64_neg]
  exact BitVec.ofInt_add m (-n)

/-- Bit 63 is the sign of the signed reading. -/
theorem getLsbD_63_iff (w : Word) : w.getLsbD 63 = true ↔ w.toInt < 0 := by
  rw [Machine.toInt_neg_iff, BitVec.msb_eq_getLsbD_last]

end Sys2Proof

namespace Sys2Proof.Machine

/-! The flag rules -/

section
variable (a b r : Word)

theorem zeroFlag_iff : zeroFlag r = true ↔ r = 0#64 := beq_iff_eq

theorem carryFlag_iff (sum : Nat) : carryFlag sum = true ↔ 2 ^ 64 ≤ sum := decide_eq_true_iff

theorem overflowAdd_iff : overflowAdd a b r = true ↔
    a.getLsbD 63 = b.getLsbD 63 ∧ r.getLsbD 63 ≠ a.getLsbD 63 := by
  rw [overflowAdd, Bool.and_eq_true, beq_iff_eq, bne_iff_ne]

theorem overflowSub_iff : overflowSub a b r = true ↔
    a.getLsbD 63 ≠ b.getLsbD 63 ∧ r.getLsbD 63 ≠ a.getLsbD 63 := by
  rw [overflowSub, Bool.and_eq_true, bne_iff_ne, bne_iff_ne]

/-- The sign rule of ADD detects the sums outside 64 bits (rule R164). -/
theorem overflowAdd_add_iff : overflowAdd a b (a + b) = true ↔
    a.toInt + b.toInt < -2 ^ 63 ∨ 2 ^ 63 ≤ a.toInt + b.toInt := by
  have signs : overflowAdd a b (a + b) = a.saddOverflow b := by
    rw [BitVec.saddOverflow_eq]
    simp only [BitVec.msb_eq_getLsbD_last]
    rfl
  rw [signs, BitVec.saddOverflow, Bool.or_eq_true, decide_eq_true_iff, decide_eq_true_iff]
  exact or_comm

/-- The sign rule of SUB detects the differences outside 64 bits, with `B = MIN64` too (rule R164). -/
theorem overflowSub_sub_iff : overflowSub a b (a - b) = true ↔
    a.toInt - b.toInt < -2 ^ 63 ∨ 2 ^ 63 ≤ a.toInt - b.toInt := by
  have table : ∀ x y z : Bool, (x != y && z != x) = (!x && y && z || x && !y && !z) := by decide
  have signs : overflowSub a b (a - b) = a.ssubOverflow b := by
    rw [BitVec.ssubOverflow_eq]
    simp only [BitVec.msb_eq_getLsbD_last]
    exact table _ _ _
  rw [signs, BitVec.ssubOverflow, Bool.or_eq_true, decide_eq_true_iff, decide_eq_true_iff]
  exact or_comm

/-! The outcomes of ADD and SUB, field by field -/

@[simp] theorem addOutcome_result : (addOutcome a b).result = a + b := by
  refine BitVec.eq_of_toNat_eq ?_
  rw [BitVec.toNat_add]
  exact toNat_bv64_natCast (a.toNat + b.toNat)

theorem addOutcome_negative : (addOutcome a b).negative = (addOutcome a b).result.getLsbD 63 := rfl

theorem addOutcome_zero_iff : (addOutcome a b).zero = true ↔ (addOutcome a b).result = 0#64 := zeroFlag_iff _

theorem addOutcome_carry_iff : (addOutcome a b).carry = true ↔ 2 ^ 64 ≤ a.toNat + b.toNat := carryFlag_iff _

theorem addOutcome_overflow : (addOutcome a b).overflow = overflowAdd a b (a + b) := by
  rw [← addOutcome_result]
  rfl

theorem toNat_not_add_one : (~~~b).toNat + 1 = 2 ^ 64 - b.toNat := by
  have hb := b.isLt
  rw [BitVec.toNat_not]
  omega

@[simp] theorem subOutcome_result : (subOutcome a b).result = a - b := by
  refine BitVec.eq_of_toNat_eq ?_
  rw [BitVec.toNat_sub', ← toNat_not_add_one, ← Nat.add_assoc]
  exact toNat_bv64_natCast (a.toNat + (~~~b).toNat + 1)

theorem subOutcome_negative : (subOutcome a b).negative = (subOutcome a b).result.getLsbD 63 := rfl

theorem subOutcome_zero_iff : (subOutcome a b).zero = true ↔ (subOutcome a b).result = 0#64 := zeroFlag_iff _

/-- `Z` of SUB is equality of the operands. -/
theorem subOutcome_zero_iff_eq : (subOutcome a b).zero = true ↔ a = b := by
  rw [subOutcome_zero_iff, subOutcome_result]
  exact sub_eq_zero

theorem subOutcome_carry_iff : (subOutcome a b).carry = true ↔ 2 ^ 64 ≤ a.toNat + (~~~b).toNat + 1 :=
  carryFlag_iff _

/-- The carry of the three-term sum is the absence of a borrow (rule R166). -/
theorem subOutcome_carry_iff_le : (subOutcome a b).carry = true ↔ b.toNat ≤ a.toNat := by
  have hb := b.isLt
  rw [subOutcome_carry_iff, Nat.add_assoc, toNat_not_add_one]
  omega

theorem subOutcome_overflow : (subOutcome a b).overflow = overflowSub a b (a - b) := by
  rw [← subOutcome_result]
  rfl

/-- `N` differs from `V` after a SUB exactly where `A` is the smaller operand: with an overflow the sign of `A`
decides and `N` is its opposite, without one `N` is the sign of the exact difference. -/
theorem subOutcome_negative_ne_overflow_iff :
    (subOutcome a b).negative ≠ (subOutcome a b).overflow ↔ a.toInt < b.toInt := by
  rw [subOutcome_negative, subOutcome_result, subOutcome_overflow]
  cases hv : overflowSub a b (a - b) with
  | true =>
    obtain ⟨hab, hra⟩ := (overflowSub_iff a b (a - b)).1 hv
    have hdiffer : ¬(a.toInt < 0 ↔ b.toInt < 0) := by
      rwa [← getLsbD_63_iff, ← getLsbD_63_iff, ← Bool.eq_iff_iff]
    rw [Bool.eq_not_of_ne hra, ne_eq, Bool.not_eq_true', Bool.not_eq_false, getLsbD_63_iff]
    omega
  | false =>
    have hfits := mt (overflowSub_sub_iff a b).2 (Bool.eq_false_iff.1 hv)
    have hexact : (a - b).toInt = a.toInt - b.toInt := by
      rw [BitVec.toInt_sub, Int.bmod_eq_of_le] <;> omega
    rw [ne_eq, Bool.not_eq_false, getLsbD_63_iff, hexact]
    omega

end

/-- Adding 0 is the plain outcome: the sum fits, and the result has the sign of `A`. -/
theorem addOutcome_zero_right (a : Word) : addOutcome a 0 = plainOutcome a := by
  have hresult : a + 0 = a := add_zero a
  have hcarry : (addOutcome a 0).carry = false := by
    have ha := a.isLt
    rw [← Bool.not_eq_true, addOutcome_carry_iff]
    exact ha.not_ge
  have hoverflow : (addOutcome a 0).overflow = false := by
    rw [addOutcome_overflow, hresult, ← Bool.not_eq_true, overflowAdd_iff]
    exact fun h => h.2 rfl
  calc addOutcome a 0
      = { plainOutcome (addOutcome a 0).result with
          carry := (addOutcome a 0).carry, overflow := (addOutcome a 0).overflow } := rfl
    _ = plainOutcome a := by
      rw [hcarry, hoverflow, addOutcome_result, hresult]
      rfl

/-! Which ALU outcome a command answers -/

/-- Every way in which a command answers an ALU outcome: ADD, SUB and the two markers have outcomes of their own,
every other tag the plain one of its result (rule R169). -/
inductive AluAnswer : Instr → AluOutcome → Prop
  | add (a b : Word) : AluAnswer (.aluAdd a b) (addOutcome a b)
  | sub (a b : Word) : AluAnswer (.aluSub a b) (subOutcome a b)
  | idle (a b : Word) : AluAnswer (.aluIdle a b) (markerOutcome false)
  | unknown (code : BitVec 4) (a b : Word) : AluAnswer (.aluUnknown code a b) (markerOutcome true)
  | plain {i : Instr} (r : Word) :
      (∀ a b, i ≠ .aluAdd a b ∧ i ≠ .aluSub a b ∧ i ≠ .aluIdle a b ∧ ∀ code, i ≠ .aluUnknown code a b) →
      AluAnswer i (plainOutcome r)

section
variable {i : Instr} {s t : State} {o o' : AluOutcome}

/-- A command that completes has answered the response it completes with. -/
theorem response_of_complete {r r' : Response} (h : complete t r = .next (s.answered r')) : r = r' :=
  (List.cons.inj (congrArg State.responses (Host.Outcome.next.inj h))).1

theorem outcome_of_complete (h : complete t (.alu o) = .next (s.answered (.alu o'))) : o = o' :=
  Response.alu.inj (response_of_complete h)

/-- A command behind its check answers an outcome only where the check passes. -/
theorem guarded_answers_outcome {α : Type} {check : Except ErrorKind α} {go : α → Result}
    (h : guarded i s check go = .next (s.answered (.alu o))) : ∃ x, go x = .next (s.answered (.alu o)) := by
  cases check with
  | error kind => cases response_of_complete h
  | ok x => exact ⟨x, h⟩

theorem AnswersOutcome.aluAnswer (h : AnswersOutcome i s o) : AluAnswer i o := by
  cases i with
  | rfRead | rfWrite | memRead | memWrite | seExtend32 | seExtend64 =>
    obtain ⟨x, hx⟩ := guarded_answers_outcome h
    cases response_of_complete hx
  | rfClear | memClear | memSnapshot => cases response_of_complete h
  | aluAdd a b =>
    obtain rfl := outcome_of_complete h
    exact .add a b
  | aluSub a b =>
    obtain rfl := outcome_of_complete h
    exact .sub a b
  | aluIdle a b =>
    obtain rfl := outcome_of_complete h
    exact .idle a b
  | aluUnknown code a b =>
    obtain rfl := outcome_of_complete h
    exact .unknown code a b
  | aluSdiv | aluUdiv =>
    obtain ⟨x, hx⟩ := guarded_answers_outcome h
    obtain rfl := outcome_of_complete hx
    exact .plain _ (by simp)
  | aluAnd | aluOrr | aluEor | aluLsl | aluLsr | aluAsr | aluMov | aluPassA | aluMul | aluSmulh | aluUmulh =>
    obtain rfl := outcome_of_complete h
    exact .plain _ (by simp)

/-- The outcome of ADD or SUB alone sets this flag, on the operands that `P` or `Q` names. -/
theorem AluAnswer.flag_iff {flag : AluOutcome → Bool} {P Q : Word → Word → Prop}
    (hadd : ∀ a b, flag (addOutcome a b) = true ↔ P a b) (hsub : ∀ a b, flag (subOutcome a b) = true ↔ Q a b)
    (hmarker : ∀ unknown, flag (markerOutcome unknown) = false) (hplain : ∀ r, flag (plainOutcome r) = false)
    (h : AluAnswer i o) :
    flag o = true ↔ ∃ a b, (i = .aluAdd a b ∧ P a b) ∨ (i = .aluSub a b ∧ Q a b) := by
  cases h with
  | add a b => simp [hadd]
  | sub a b => simp [hsub]
  | idle | unknown => simp [hmarker]
  | plain r hi => simp [hplain, hi]

end

/-! ADD and SUB -/

/-- Settles O35: the outcome is `addOutcome`, field by field. -/
theorem addAnswersSumAndFlags : Obligations.AddAnswersSumAndFlags := by
  intro a b s
  refine ⟨rfl, addOutcome a b, rfl, ?_, addOutcome_negative a b, addOutcome_zero_iff a b,
    addOutcome_carry_iff a b, ?_, rfl⟩
  · rw [addOutcome_result, BitVec.toNat_add]
  · exact overflowAdd_iff a b (addOutcome a b).result

/-- Settles O36: the outcome is `subOutcome`, field by field; the unsigned and the signed difference are one word. -/
theorem subAnswersDifferenceAndFlags : Obligations.SubAnswersDifferenceAndFlags := by
  intro a b s
  refine ⟨rfl, subOutcome a b, rfl, ?_, ?_, subOutcome_negative a b, subOutcome_zero_iff a b,
    subOutcome_zero_iff_eq a b, subOutcome_carry_iff a b, subOutcome_carry_iff_le a b, ?_, rfl⟩
  · rw [subOutcome_result, bv64_sub, bv64_toNat, bv64_toNat]
  · rw [subOutcome_result, bv64_sub, bv64_toInt, bv64_toInt]
  · exact overflowSub_iff a b (subOutcome a b).result

/-- Settles O40: the comparisons are facts about `subOutcome`, which is what the command answers. -/
theorem subFlagsCompareOperands : Obligations.SubFlagsCompareOperands := by
  intro a b s o h
  obtain rfl : subOutcome a b = o := outcome_of_complete h
  exact ⟨subOutcome_zero_iff_eq a b, subOutcome_carry_iff_le a b, subOutcome_negative_ne_overflow_iff a b⟩

/-- Settles O41: a difference is the sum with the negation, which is the complement plus 1; MOV and PASS_A have one
meaning with the operands swapped, and 0 is neutral for ORR and ADD. -/
theorem aluCommandsInTermsOfEachOther : Obligations.AluCommandsInTermsOfEachOther := by
  intro a b s sub neg addNot one hsub hneg haddNot hone
  obtain rfl : subOutcome a b = sub := outcome_of_complete hsub
  obtain rfl : addOutcome a (bv64 (-b.toInt)) = neg := outcome_of_complete hneg
  obtain rfl : addOutcome a (~~~b) = addNot := outcome_of_complete haddNot
  obtain rfl : addOutcome (addOutcome a (~~~b)).result 1 = one := outcome_of_complete hone
  have hor : a ||| 0 = a := BitVec.or_zero
  refine ⟨?_, ?_, rfl, ?_, ?_⟩
  · rw [subOutcome_result, addOutcome_result, bv64_neg, bv64_toInt, BitVec.sub_eq_add_neg]
  · rw [subOutcome_result, addOutcome_result, addOutcome_result, BitVec.sub_eq_add_neg, BitVec.neg_eq_not_add,
      BitVec.add_assoc]
    rfl
  · rw [exec, exec, execAluPassA, execAluOrr, hor]
  · rw [exec, exec, execAluPassA, execAluAdd, addOutcome_zero_right]

/-! The flags of every outcome -/

/-- Settles O37: only ADD and SUB set `V`, each by its sign rule. -/
theorem overflowIsUnrepresentableResult : Obligations.OverflowIsUnrepresentableResult := by
  intro i s o h
  refine h.aluAnswer.flag_iff (flag := AluOutcome.overflow) (fun a b => ?_) (fun a b => ?_)
    (fun _ => rfl) plainOutcome_overflow
  · rw [addOutcome_overflow, overflowAdd_add_iff]
  · rw [subOutcome_overflow, overflowSub_sub_iff]

/-- Settles O38: only ADD and SUB set `C`, each from its exact sum. -/
theorem carryIsUnsignedCarryOrNoBorrow : Obligations.CarryIsUnsignedCarryOrNoBorrow :=
  fun _ _ _ h => h.aluAnswer.flag_iff (flag := AluOutcome.carry) addOutcome_carry_iff subOutcome_carry_iff_le
    (fun _ => rfl) plainOutcome_carry

/-- Settles O39, by the kinds of outcome. -/
theorem negativeAndZeroFollowResult : Obligations.NegativeAndZeroFollowResult := by
  intro i s o h
  cases h.aluAnswer with
  | add a b => exact .inr ⟨by simp, by simp, addOutcome_negative a b, addOutcome_zero_iff a b⟩
  | sub a b => exact .inr ⟨by simp, by simp, subOutcome_negative a b, subOutcome_zero_iff a b⟩
  | idle a b => exact .inl ⟨.inl ⟨a, b, rfl⟩, rfl, rfl, rfl⟩
  | unknown code a b => exact .inl ⟨.inr ⟨code, a, b, rfl⟩, rfl, rfl, rfl⟩
  | plain r hi => exact .inr ⟨by simp [hi], by simp [hi], plainOutcome_negative r, zeroFlag_iff r⟩

/-! The shifts as arithmetic -/

section
variable (a b : Word)

theorem toNat_lslResult : (lslResult a b).toNat = a.toNat * 2 ^ (b.toNat % 64) % 2 ^ 64 := by
  rw [lslResult, toNat_bv64_natCast, shiftAmount_eq]

/-- The quotient of LSR needs no reduction: it is at most the dividend. -/
theorem toNat_lsrResult : (lsrResult a b).toNat = a.toNat / 2 ^ (b.toNat % 64) := by
  rw [lsrResult, toNat_bv64_natCast, shiftAmount_eq, Nat.mod_eq_of_lt]
  exact (Nat.div_le_self _ _).trans_lt a.isLt

/-- A signed value divided by a positive number fits its 64 bits. -/
theorem fitsSigned64_ediv {d : Int} (hd : 0 < d) : fitsSigned64 (a.toInt / d) = true := by
  have hlow := BitVec.le_toInt a
  have hhigh := BitVec.toInt_lt (x := a)
  refine decide_eq_true ⟨Int.le_ediv_of_mul_le hd ?_, Int.ediv_lt_of_lt_mul hd ?_⟩ <;> omega

/-- The quotient of ASR needs no reduction, and by a positive divisor the floor is Euclid's quotient. -/
theorem toInt_asrResult : (asrResult a b).toInt = a.toInt / 2 ^ (b.toNat % 64) := by
  have hpos : (0 : Int) < 2 ^ (b.toNat % 64) := Int.pow_pos (by decide)
  rw [asrResult, shiftAmount_eq, Int.fdiv_eq_ediv_of_nonneg _ hpos.le, bv64_toInt_of_fits (fitsSigned64_ediv a hpos)]

end

/-- Settles O44: the results are a product and two quotients of which none but the product is reduced; the floor
quotient is the one between whose multiples the dividend lies. -/
theorem shiftsAreArithmetic : Obligations.ShiftsAreArithmetic := by
  intro a b s
  have hpos : (0 : Int) < 2 ^ (b.toNat % 64) := Int.pow_pos (by decide)
  refine ⟨_, _, _, rfl, rfl, rfl, toNat_lslResult a b, toNat_lsrResult a b, ?_⟩
  rw [plainOutcome_result, toInt_asrResult]
  exact ⟨Int.ediv_mul_le _ hpos.ne', Int.lt_ediv_add_one_mul_self _ hpos⟩

/-! The pure units (rules R160, R230) -/

/-- The command answers one and the same response in every state and changes nothing else. -/
def IsPure (i : Instr) : Prop := ∃ r : Response, ∀ s : State, exec i s = .next (s.answered r)

/-- A check that does not look at the state and a pure meaning behind it: the command is pure. -/
theorem guarded_pure {α : Type} {i : Instr} (check : Except ErrorKind α) {go : State → α → Result} {r : α → Response}
    (hgo : ∀ s x, go s x = .next (s.answered (r x))) (hexec : ∀ s, exec i s = guarded i s check (go s)) :
    IsPure i := by
  cases check with
  | error kind => exact ⟨.error kind (encode i), hexec⟩
  | ok x => exact ⟨r x, fun s => (hexec s).trans (hgo s x)⟩

/-- Settles O53: the register file and the memory store have other unit codes; of the pure units four commands have
a check, which looks at the operands alone, and the others none. -/
theorem aluAndSignExtenderArePure : Obligations.AluAndSignExtenderArePure := by
  intro i hunit
  change IsPure i
  cases i with
  | rfRead | rfWrite | rfClear | memRead | memWrite | memClear | memSnapshot =>
    rw [encode, mkFrame_cmd] at hunit
    exact absurd hunit (by decide)
  | aluSdiv a b => exact guarded_pure (divisor a b) (fun _ _ => rfl) fun _ => rfl
  | aluUdiv a b => exact guarded_pure (divisor a b) (fun _ _ => rfl) fun _ => rfl
  | seExtend32 ignored value width =>
    exact guarded_pure (extendWidth Config.narrowWidth width) (fun _ _ => rfl) fun _ => rfl
  | seExtend64 value width =>
    exact guarded_pure (extendWidth Config.wideWidth width) (fun _ _ => rfl) fun _ => rfl
  | _ => exact ⟨_, fun _ => rfl⟩

end Sys2Proof.Machine
end

section
/-! The logical, shift and move commands bit by bit (rules R180 to R189): the outcome of each is the plain one of its
result, and the result of a shift is the word shifted by the low six bits of `B`. -/

namespace Sys2Proof.Machine

/-- The plain outcome has plain flags (rule R169): bit 63 is the sign of the result. -/
theorem plainOutcome_plainFlags (r : Word) : (plainOutcome r).PlainFlags :=
  ⟨getLsbD_63_iff r, zeroFlag_iff r, plainOutcome_carry r, plainOutcome_overflow r, plainOutcome_unknown r⟩

section
variable (a b : Word)

/-- The value of `MOV_SRC` is operand B (log 6). -/
theorem movResult_eq : movResult a b = b := rfl

/-! The results of the shifts as shifts of words -/

theorem lslResult_eq_shiftLeft : lslResult a b = a <<< (b.toNat % 64) := by
  refine BitVec.eq_of_toNat_eq ?_
  rw [toNat_lslResult, BitVec.toNat_shiftLeft, Nat.shiftLeft_eq]

theorem lsrResult_eq_ushiftRight : lsrResult a b = a >>> (b.toNat % 64) := by
  refine BitVec.eq_of_toNat_eq ?_
  rw [toNat_lsrResult, BitVec.toNat_ushiftRight, Nat.shiftRight_eq_div_pow]

theorem asrResult_eq_sshiftRight : asrResult a b = a.sshiftRight (b.toNat % 64) := by
  refine BitVec.eq_of_toInt_eq ?_
  rw [toInt_asrResult, BitVec.toInt_sshiftRight, Int.shiftRight_eq_div_pow, Int.natCast_pow]
  rfl

/-! Their bits -/

variable {k : Nat}

theorem getLsbD_lslResult (hk : k < 64) : (lslResult a b).getLsbD k =
    if k < b.toNat % 64 then false else a.getLsbD (k - b.toNat % 64) := by
  rw [lslResult_eq_shiftLeft, BitVec.getLsbD_shiftLeft, decide_eq_true hk, Bool.true_and]
  split
  next hlow => rw [decide_eq_true hlow, Bool.not_true, Bool.false_and]
  next hmoved => rw [decide_eq_false hmoved, Bool.not_false, Bool.true_and]

/-- The zeros that enter a logical right shift are the bits past the end of `A`. -/
theorem getLsbD_lsrResult : (lsrResult a b).getLsbD k =
    if k + b.toNat % 64 ≤ 63 then a.getLsbD (k + b.toNat % 64) else false := by
  rw [lsrResult_eq_ushiftRight, BitVec.getLsbD_ushiftRight, Nat.add_comm]
  split
  next => rfl
  next hpast => exact BitVec.getLsbD_of_ge a _ (by omega)

theorem getLsbD_asrResult (hk : k < 64) : (asrResult a b).getLsbD k =
    if k + b.toNat % 64 ≤ 63 then a.getLsbD (k + b.toNat % 64) else a.getLsbD 63 := by
  rw [asrResult_eq_sshiftRight, BitVec.getLsbD_sshiftRight, decide_eq_false hk.not_ge, Bool.not_false,
    Bool.true_and, BitVec.msb_eq_getLsbD_last, Nat.add_comm]
  exact if_congr Nat.lt_succ_iff rfl rfl

end

/-- Settles O43: the results are the shifts of the word `A`, whose bits the lemmas above give. -/
theorem shiftsMoveBitsByLowSixBits : Obligations.ShiftsMoveBitsByLowSixBits := by
  intro a b s
  refine ⟨rfl, rfl, rfl, _, _, _, rfl, rfl, rfl, plainOutcome_plainFlags (lslResult a b),
    plainOutcome_plainFlags (lsrResult a b), plainOutcome_plainFlags (asrResult a b), fun k hk => ?_⟩
  exact ⟨getLsbD_lslResult a b hk, getLsbD_lsrResult a b, getLsbD_asrResult a b hk⟩

/-- Settles O42: each result is the operation on words, which acts on each bit. -/
theorem logicalCommandsActBitwise : Obligations.LogicalCommandsActBitwise := by
  intro a b s
  refine ⟨rfl, rfl, rfl, _, _, _, rfl, rfl, rfl, plainOutcome_plainFlags (a &&& b),
    plainOutcome_plainFlags (a ||| b), plainOutcome_plainFlags (a ^^^ b), fun k _ => ?_⟩
  exact ⟨BitVec.getLsbD_and, BitVec.getLsbD_or, BitVec.getLsbD_xor⟩

/-- Settles O45: the outcome is the plain one of operand A. -/
theorem passAAnswersOperandA : Obligations.PassAAnswersOperandA :=
  fun a _ _ => ⟨rfl, plainOutcome a, rfl, plainOutcome_result a, plainOutcome_plainFlags a⟩

/-- Settles O46: the outcome is the plain one of the operand that `MOV_SRC` names. -/
theorem movAnswersOperandB : Obligations.MovAnswersOperandB :=
  fun a b _ => ⟨rfl, plainOutcome (movResult a b), rfl, movResult_eq a b, plainOutcome_plainFlags _⟩

end Sys2Proof.Machine
end

section
/-! The multiply, divide and marker commands (rules R200 to R209): the result of each as the arithmetic it carries
out, with the reason why a quotient or a high half needs no reduction. -/

namespace Sys2Proof

theorem bv64_mul (m n : Int) : bv64 (m * n) = bv64 m * bv64 n := BitVec.ofInt_mul m n

/-- The unsigned reading of `bv64 n` is Euclid's remainder of `n`. -/
theorem toNat_bv64 (n : Int) : ((bv64 n).toNat : Int) = n % 2 ^ 64 := by
  rw [bv64, BitVec.toNat_ofInt, Int.toNat_of_nonneg (Int.emod_nonneg _ (by decide))]
  rfl

/-- A divisor of signed value -1 is the word of 64 ones. -/
theorem eq_neg_one_of_toInt {b : Word} (h : b.toInt = -1) : b = -1#64 :=
  BitVec.eq_of_toInt_eq (h.trans (by decide))

end Sys2Proof

namespace Sys2Proof.Machine

section
variable (a b : Word)

/-! The product and its halves -/

/-- The low half is the product of the words: there signed and unsigned operands do not differ (rule R200). -/
theorem mulResult_eq_mul : mulResult a b = a * b := by
  rw [mulResult, bv64_mul, bv64_toInt, bv64_toInt]

theorem toNat_mulResult : (mulResult a b).toNat = a.toNat * b.toNat % 2 ^ 64 := by
  rw [mulResult_eq_mul, BitVec.toNat_mul]

theorem toNat_mulResult_eq_emod : ((mulResult a b).toNat : Int) = a.toInt * b.toInt % 2 ^ 64 := toNat_bv64 _

/-- The unsigned high half needs no reduction: the product is below `2^128`. -/
theorem toNat_umulhResult : (umulhResult a b).toNat = a.toNat * b.toNat / 2 ^ 64 := by
  rw [umulhResult, toNat_bv64_natCast, Nat.mod_eq_of_lt]
  exact Nat.div_lt_of_lt_mul (Nat.mul_lt_mul'' a.isLt b.isLt)

/-- A signed product lies between `-2^126` and `2^126`, so its high half fits 64 bits. -/
theorem fitsSigned64_highHalf : fitsSigned64 (a.toInt * b.toInt / 2 ^ 64) = true := by
  have hlow := BitVec.le_toInt_mul_toInt (x := a) (y := b)
  have hhigh := BitVec.toInt_mul_toInt_le (x := a) (y := b)
  refine decide_eq_true ⟨Int.le_ediv_of_mul_le (by decide) ?_, Int.ediv_lt_of_lt_mul (by decide) ?_⟩ <;> omega

/-- The floor of rule R201 is Euclid's quotient, as `2^64` is positive. -/
theorem toInt_smulhResult : (smulhResult a b).toInt = a.toInt * b.toInt / 2 ^ 64 := by
  rw [smulhResult, Int.fdiv_eq_ediv_of_nonneg _ (by decide), bv64_toInt_of_fits (fitsSigned64_highHalf a b)]

/-! The quotients -/

/-- The unsigned quotient needs no reduction: it is at most the dividend (rule R204). -/
theorem toNat_udivResult : (udivResult a b).toNat = a.toNat / b.toNat := by
  rw [udivResult, toNat_bv64_natCast, Nat.mod_eq_of_lt]
  exact (Nat.div_le_self _ _).trans_lt a.isLt

/-- `SDIV_ROUND` is the rounding of the signed division of words, with its wrap at `MIN64 / -1` (log 7). -/
theorem sdivResult_eq_sdiv : sdivResult a b = a.sdiv b := by
  refine BitVec.eq_of_toInt_eq ?_
  rw [BitVec.toInt_sdiv, sdivResult, bv64, BitVec.toInt_ofInt]
  rfl

/-- The one quotient outside 64 bits wraps to `MIN64` (rule R203). -/
theorem sdivResult_min64_neg_one : sdivResult min64 (-1#64) = min64 := by decide

variable {a b}

/-- Away from `MIN64 / -1` the quotient toward zero fits. -/
theorem toInt_sdivResult (h : ¬(a = min64 ∧ b.toInt = -1)) :
    (sdivResult a b).toInt = a.toInt.tdiv b.toInt := by
  rw [sdivResult_eq_sdiv]
  refine BitVec.toInt_sdiv_of_ne_or_ne a b ?_
  by_contra! hcorner
  obtain ⟨ha, hb⟩ := hcorner
  exact h ⟨ha, by rw [hb]; decide⟩

end

/-! The remainder of a division toward zero, which pins the quotient (rule R209) -/

theorem abs_tmod_lt (n : Int) {d : Int} (hd : d ≠ 0) : |n.tmod d| < |d| := by
  rw [Int.abs_eq_natAbs, Int.abs_eq_natAbs, Int.natAbs_tmod, Int.ofNat_lt]
  exact Nat.mod_lt _ (Int.natAbs_pos.2 hd)

/-- A remainder that is not 0 has the sign of the dividend. -/
theorem tmod_sign_cases (n d : Int) :
    n.tmod d = 0 ∨ (0 < n.tmod d ∧ 0 < n) ∨ (n.tmod d < 0 ∧ n < 0) := by
  by_cases hdvd : d ∣ n
  · exact .inl (Int.tmod_eq_zero_of_dvd hdvd)
  · have hsign : (n.tmod d).sign = n.sign := by rw [Int.sign_tmod, if_neg hdvd]
    rcases lt_trichotomy (n.tmod d) 0 with hneg | hzero | hpos
    · exact .inr (.inr ⟨hneg, Int.sign_eq_neg_one_iff_neg.1 (hsign ▸ Int.sign_eq_neg_one_of_neg hneg)⟩)
    · exact .inl hzero
    · exact .inr (.inl ⟨hpos, Int.sign_eq_one_iff_pos.1 (hsign ▸ Int.sign_eq_one_of_pos hpos)⟩)

/-! What the divisor check does to a command behind it (rules R208, R255) -/

section
variable {a b : Word}

theorem guarded_divisor_of_ne_zero (hb : b ≠ 0#64) (i : Instr) (s : State) (go : Word → Result) :
    guarded i s (divisor a b) go = go b := by
  rcases divisor_cases a b with ⟨-, hok⟩ | ⟨hzero, -⟩
  · rw [hok, guarded_ok]
  · exact absurd hzero hb

theorem guarded_divisor_of_eq_zero (hb : b = 0#64) (i : Instr) (s : State) (go : Word → Result) :
    guarded i s (divisor a b) go = .next (s.answered (.error (.divisionByZero a b) (encode i))) := by
  rcases divisor_cases a b with ⟨hne, -⟩ | ⟨-, herror⟩
  · exact absurd hb hne
  · rw [herror, guarded_error]
    rfl

end

/-- Settles O51: the outcome is the marker's without the mark, whatever the operands. -/
theorem idleAnswersZeroWithoutFlags : Obligations.IdleAnswersZeroWithoutFlags :=
  fun _ _ _ => ⟨rfl, markerOutcome false, rfl, rfl, rfl, rfl, rfl, rfl, rfl⟩

/-- Settles O47: the high half of the signed product is the quotient between whose multiples of `2^64` the product
lies. -/
theorem multipliesAnswerProductHalves : Obligations.MultipliesAnswerProductHalves := by
  intro a b s
  refine ⟨rfl, rfl, rfl, _, _, _, rfl, rfl, rfl, plainOutcome_plainFlags (mulResult a b),
    plainOutcome_plainFlags (smulhResult a b), plainOutcome_plainFlags (umulhResult a b),
    toNat_mulResult a b, ?_, ?_, toNat_umulhResult a b⟩
  · rw [plainOutcome_result, toInt_smulhResult]
    exact Int.ediv_mul_le _ (by decide)
  · rw [plainOutcome_result, toInt_smulhResult]
    exact Int.lt_ediv_add_one_mul_self _ (by decide)

/-- Settles O48: quotient and remainder by `2^64` make the product, once over the unsigned and once over the signed
operands. -/
theorem productHalvesMakeTheProduct : Obligations.ProductHalvesMakeTheProduct := by
  intro a b s low high uhigh hlow hhigh huhigh
  obtain rfl : plainOutcome (mulResult a b) = low := outcome_of_complete hlow
  obtain rfl : plainOutcome (smulhResult a b) = high := outcome_of_complete hhigh
  obtain rfl : plainOutcome (umulhResult a b) = uhigh := outcome_of_complete huhigh
  simp only [plainOutcome_result]
  constructor
  · rw [toNat_umulhResult, toNat_mulResult, Nat.div_add_mod']
  · rw [toInt_smulhResult, toNat_mulResult_eq_emod, Int.ediv_mul_add_emod]

/-- Settles O49: behind the divisor check the answer is the quotient, which fits. -/
theorem udivAnswersUnsignedQuotient : Obligations.UdivAnswersUnsignedQuotient := by
  intro a b s
  refine ⟨rfl, fun hb => ?_, fun hb => guarded_divisor_of_eq_zero hb _ s _⟩
  exact ⟨plainOutcome (udivResult a b), guarded_divisor_of_ne_zero hb _ s _, toNat_udivResult a b,
    plainOutcome_plainFlags (udivResult a b)⟩

/-- Settles O50: away from the corner the quotient is the one toward zero, and `r` is its remainder. -/
theorem sdivAnswersSignedQuotient : Obligations.SdivAnswersSignedQuotient := by
  intro a b s
  refine ⟨rfl, fun hb => ?_, fun hb => guarded_divisor_of_eq_zero hb _ s _⟩
  refine ⟨plainOutcome (sdivResult a b), guarded_divisor_of_ne_zero hb _ s _,
    plainOutcome_plainFlags (sdivResult a b), ?_, fun hcorner => ?_⟩
  · rintro ⟨rfl, hone⟩
    rw [plainOutcome_result, eq_neg_one_of_toInt hone, sdivResult_min64_neg_one]
  · have hdivisor : b.toInt ≠ 0 := fun h => hb (BitVec.eq_of_toInt_eq (h.trans BitVec.toInt_zero.symm))
    refine ⟨a.toInt.tmod b.toInt, ?_, abs_tmod_lt a.toInt hdivisor, tmod_sign_cases a.toInt b.toInt⟩
    rw [plainOutcome_result, toInt_sdivResult hcorner, Int.tdiv_mul_add_tmod]

end Sys2Proof.Machine
end

section
/-! The sign-extension commands (rules R230 to R235): the width check decides between the error and `sext`, whose
bits and signed value are given here once for both native widths. -/

namespace Sys2Proof.Machine

/-! The width check (rules R231, R232, R254) -/

section
variable {native : Nat}

theorem extendWidth_of_legal {n : Nat} (hpos : 1 ≤ n) (hle : n ≤ native) : extendWidth native n = .ok n := by
  rcases extendWidth_cases native n with ⟨m, -, -, hm, hok⟩ | ⟨houtside, -⟩
  · rwa [Int.natCast_inj.1 hm] at hok
  · omega

theorem extendWidth_of_out_of_range {width : Int} (h : width < 1 ∨ native < width) :
    extendWidth native width = .error (.invalidBitWidth width) := by
  rcases extendWidth_cases native width with ⟨n, hpos, hle, rfl, -⟩ | ⟨-, herror⟩
  · omega
  · exact herror

end

/-! What the two commands answer -/

section
variable (ignored narrow : BitVec 32) (wide : Word) {n : Nat} {width : Int} (s : State)

theorem seExtend32_of_legal (hpos : 1 ≤ n) (hle : n ≤ 32) :
    exec (.seExtend32 ignored narrow n) s = .next (s.answered (.result (sext n narrow))) := by
  rw [exec, execSeExtend32, extendWidth_of_legal hpos hle, guarded_ok]
  rfl

theorem seExtend64_of_legal (hpos : 1 ≤ n) (hle : n ≤ 64) :
    exec (.seExtend64 wide n) s = .next (s.answered (.result (sext n wide))) := by
  rw [exec, execSeExtend64, extendWidth_of_legal hpos hle, guarded_ok]
  rfl

theorem seExtend32_error (h : width < 1 ∨ 32 < width) :
    AnswersError (.seExtend32 ignored narrow width) s (.invalidBitWidth width) := by
  rw [AnswersError, exec, execSeExtend32, extendWidth_of_out_of_range h, guarded_error]
  rfl

theorem seExtend64_error (h : width < 1 ∨ 64 < width) :
    AnswersError (.seExtend64 wide width) s (.invalidBitWidth width) := by
  rw [AnswersError, exec, execSeExtend64, extendWidth_of_out_of_range h, guarded_error]
  rfl

variable {wide s}

/-- The one result a legal width lets the wide form answer. -/
theorem result_of_seExtend64 {r : Word} (hpos : 1 ≤ n) (hle : n ≤ 64)
    (h : exec (.seExtend64 wide n) s = .next (s.answered (.result r))) : sext n wide = r :=
  Response.result.inj (response_of_complete ((seExtend64_of_legal wide s hpos hle).symm.trans h))

end

/-! The function `sext` (rules R8, R233) -/

section
variable {native n : Nat} (v : BitVec native)

/-- The low bits are kept and every higher bit is the top one of them (rule R234 (a)). -/
theorem getLsbD_sext (hpos : 1 ≤ n) {k : Nat} (hk : k < 64) :
    (sext n v).getLsbD k = if k < n then v.getLsbD k else v.getLsbD (n - 1) := by
  have htop : n - 1 < n := by omega
  rw [sext, BitVec.getLsbD_signExtend, decide_eq_true hk, Bool.true_and, BitVec.msb_eq_getLsbD_last]
  split
  next hlow => rw [BitVec.getLsbD_setWidth, decide_eq_true hlow, Bool.true_and]
  next => rw [BitVec.getLsbD_setWidth, decide_eq_true htop, Bool.true_and]

/-- The signed value is that of the low bits (rule R233). -/
theorem toInt_sext (hle : n ≤ 64) : (sext n v).toInt = (v.setWidth n).toInt :=
  BitVec.toInt_signExtend_of_le hle

/-- The bits at and above the width are no part of the answer (rule R234 (e)). -/
theorem sext_setWidth {m : Nat} (h : n ≤ m) : sext n (v.setWidth m) = sext n v := by
  rw [sext, BitVec.setWidth_setWidth_of_le v h, sext]

/-- A result of a width has all the higher bits equal, so the same or a greater width changes none of them
(rule R234 (c), (d)). -/
theorem sext_sext {m : Nat} (hpos : 1 ≤ n) (hnm : n ≤ m) (hle : m ≤ 64) : sext m (sext n v) = sext n v := by
  refine BitVec.eq_of_getLsbD_eq fun k hk => ?_
  rw [getLsbD_sext _ (hpos.trans hnm) hk]
  split
  next => rfl
  next hhigh =>
    rw [getLsbD_sext v hpos (by omega), getLsbD_sext v hpos hk, if_neg (show ¬k < n by omega)]
    split
    next htop => rw [show m - 1 = n - 1 by omega]
    next => rfl

end

/-! The source's algorithm (rule R233) -/

section
variable (v : Word) {n : Nat}

/-- The mask of the source's algorithm: the bits at and above the width. -/
theorem getLsbD_highBits {k : Nat} (hk : k < 64) : (BitVec.allOnes 64 <<< n).getLsbD k = !decide (k < n) := by
  rw [BitVec.getLsbD_shiftLeft, BitVec.getLsbD_allOnes, decide_eq_true hk,
    decide_eq_true (Nat.lt_of_le_of_lt (Nat.sub_le k n) hk), Bool.true_and, Bool.and_true]

theorem sext_of_sign_set (hpos : 1 ≤ n) (hsign : v.getLsbD (n - 1) = true) :
    sext n v = v ||| (BitVec.allOnes 64 <<< n) := by
  refine BitVec.eq_of_getLsbD_eq fun k hk => ?_
  rw [getLsbD_sext v hpos hk, hsign, BitVec.getLsbD_or, getLsbD_highBits hk]
  split
  next hlow => simp [hlow]
  next hhigh => simp [hhigh]

theorem sext_of_sign_clear (hpos : 1 ≤ n) (hsign : v.getLsbD (n - 1) = false) :
    sext n v = v &&& ~~~(BitVec.allOnes 64 <<< n) := by
  refine BitVec.eq_of_getLsbD_eq fun k hk => ?_
  rw [getLsbD_sext v hpos hk, hsign, BitVec.getLsbD_and, BitVec.getLsbD_not, getLsbD_highBits hk]
  split
  next hlow => simp [hlow, hk]
  next hhigh => simp [hhigh]

end

/-- Settles O54: a legal width answers `sext`, whose bits `getLsbD_sext` gives; any other fails the check. -/
theorem extend64CopiesTheSignBit : Obligations.Extend64CopiesTheSignBit := by
  intro value width s
  refine ⟨rfl, ?_, seExtend64_error value s⟩
  rintro n rfl hpos hle
  exact ⟨sext n value, seExtend64_of_legal value s hpos hle, fun _ => getLsbD_sext value hpos⟩

/-- Settles O55: as for the wide form; the ignored half of `P` stands in the frame alone. -/
theorem extend32CopiesTheSignBit : Obligations.Extend32CopiesTheSignBit := by
  intro ignored value width s
  refine ⟨rfl, ?_, seExtend32_error ignored value s⟩
  rintro n rfl hpos hle
  exact ⟨sext n value, seExtend32_of_legal ignored value s hpos hle, fun _ => getLsbD_sext value hpos⟩

/-- Settles O56: the two branches of the algorithm agree with `sext` bit by bit, and the range is that of the low
`n` bits' signed value. -/
theorem extensionIsTheSourceAlgorithm : Obligations.ExtensionIsTheSourceAlgorithm := by
  intro value n s r hpos hle h
  obtain rfl := result_of_seExtend64 hpos hle h
  refine ⟨?_, toInt_sext value hle, ?_⟩
  · split
    next hset => exact sext_of_sign_set value hpos hset
    next hclear => exact sext_of_sign_clear value hpos (Bool.eq_false_iff.2 hclear)
  · rw [toInt_sext value hle]
    exact ⟨BitVec.le_toInt _, BitVec.toInt_lt⟩

/-- Settles O57: a second extension finds the higher bits as it leaves them, and the low half holds every bit that
a width up to 32 looks at. -/
theorem extensionIsIdempotentAndFormsAgree : Obligations.ExtensionIsIdempotentAndFormsAgree := by
  intro value ignored n m s r hpos hnm hle h
  obtain rfl := result_of_seExtend64 hpos (hnm.trans hle) h
  constructor
  · rw [seExtend64_of_legal _ s (hpos.trans hnm) hle, sext_sext value hpos hnm hle]
  · intro hnarrow
    rw [seExtend32_of_legal ignored _ s hpos hnarrow, ← BitVec.setWidth_eq_extractLsb' (by decide),
      sext_setWidth value hnarrow]

end Sys2Proof.Machine
end

section
/-! The error kinds (rules R252 to R255): a command answers exactly the errors `Raises` lists, so each kind's rule is
read off the rows of that list. -/

namespace Sys2Proof.Machine

/-- The two spellings of a width outside the range of a form. -/
theorem width_out_of_range_iff {native : Nat} {width : Int} :
    ¬(1 ≤ width ∧ width ≤ native) ↔ width < 1 ∨ native < width := by omega

section
variable {b : Word} (hb : b = 0#64) (a : Word) (s : State)
include hb

theorem aluSdiv_error : AnswersError (.aluSdiv a b) s (.divisionByZero a b) := guarded_divisor_of_eq_zero hb _ s _

theorem aluUdiv_error : AnswersError (.aluUdiv a b) s (.divisionByZero a b) := guarded_divisor_of_eq_zero hb _ s _

end

/-- The list is complete and each of its rows is answered, in every state. -/
theorem answersError_iff_raises {i : Instr} {s : State} {kind : ErrorKind} :
    AnswersError i s kind ↔ Raises i kind := by
  refine ⟨fun h => (exec_error h rfl).1, fun h => ?_⟩
  cases h with
  | readIndex hindex => exact rfRead_error (by omega) _ s
  | writeIndex hindex => exact rfWrite_error (by omega) _ s
  | readAddress hneg => exact memRead_error ((toInt_neg_iff _).2 hneg) _ s
  | writeAddress hneg => exact memWrite_error ((toInt_neg_iff _).2 hneg) _ s
  | narrowWidth hwidth => exact seExtend32_error _ _ s (width_out_of_range_iff.1 hwidth)
  | wideWidth hwidth => exact seExtend64_error _ s (width_out_of_range_iff.1 hwidth)
  | signedDivisor => exact aluSdiv_error rfl _ s
  | unsignedDivisor => exact aluUdiv_error rfl _ s

/-- Settles O31: the rows of this kind are the two commands with a register index. -/
theorem invalidRegisterIndexExactly : Obligations.InvalidRegisterIndexExactly := by
  intro i s index access
  rw [answersError_iff_raises]
  constructor
  · intro h
    cases h with
    | readIndex hindex => exact ⟨by omega, .inl ⟨rfl, _, rfl⟩⟩
    | writeIndex hindex => exact ⟨by omega, .inr ⟨rfl, _, rfl⟩⟩
  · rintro ⟨hindex, ⟨rfl, ignored, rfl⟩ | ⟨rfl, value, rfl⟩⟩
    · exact .readIndex (by omega)
    · exact .writeIndex (by omega)

/-- Settles O32: the rows of this kind are the two commands with an address, and its sign bit is its sign. -/
theorem negativeAddressExactly : Obligations.NegativeAddressExactly := by
  intro i s n
  rw [answersError_iff_raises]
  constructor
  · intro h
    cases h with
    | readAddress hneg => exact ⟨(toInt_neg_iff _).2 hneg, _, rfl, .inl ⟨_, rfl⟩⟩
    | writeAddress hneg => exact ⟨(toInt_neg_iff _).2 hneg, _, rfl, .inr ⟨_, rfl⟩⟩
  · rintro ⟨hneg, a, rfl, ⟨ignored, rfl⟩ | ⟨value, rfl⟩⟩
    · exact .readAddress ((toInt_neg_iff a).1 hneg)
    · exact .writeAddress ((toInt_neg_iff a).1 hneg)

/-- Settles O33: the rows of this kind are the two sign extenders, each with the range of its native width. -/
theorem invalidBitWidthExactly : Obligations.InvalidBitWidthExactly := by
  intro i s width
  rw [answersError_iff_raises]
  constructor
  · intro h
    cases h with
    | narrowWidth hwidth => exact .inl ⟨width_out_of_range_iff.1 hwidth, _, _, rfl⟩
    | wideWidth hwidth => exact .inr ⟨width_out_of_range_iff.1 hwidth, _, rfl⟩
  · rintro (⟨hwidth, ignored, value, rfl⟩ | ⟨hwidth, value, rfl⟩)
    · exact .narrowWidth (width_out_of_range_iff.2 hwidth)
    · exact .wideWidth (width_out_of_range_iff.2 hwidth)

/-- Settles O34: the rows of this kind are the two divisions by 0, whatever the dividend. -/
theorem divisionByZeroExactly : Obligations.DivisionByZeroExactly := by
  intro i s a b
  rw [answersError_iff_raises]
  constructor
  · intro h
    cases h with
    | signedDivisor => exact ⟨rfl, .inl rfl⟩
    | unsignedDivisor => exact ⟨rfl, .inr rfl⟩
  · rintro ⟨rfl, rfl | rfl⟩
    · exact .signedDivisor
    · exact .unsignedDivisor

end Sys2Proof.Machine
end

section
/-! Reset and the outcome of every command (rules R290 to R293, R303). -/

namespace Sys2Proof.Machine

/-- Settles O26: whichever effect `exec_cases` finds, the response it names is the one the command adds. -/
theorem everyCommandCompletes : Obligations.EveryCommandCompletes := by
  intro i s
  obtain ⟨u, r, hexec, herr, -⟩ := exec_cases i s
  obtain ⟨answer, hresponses, hinputs⟩ := exec_answers_once hexec
  obtain rfl : r = answer := (List.cons.inj hresponses).1
  exact ⟨u.respond r, r, hexec, hresponses, hinputs, herr⟩

/-- The reset event puts the block's own state in its creation values and leaves the command interface. -/
theorem State.resetBlock_eq (s : State) :
    s.resetBlock = { slot := State.reset.slot, mem := State.reset.mem, inputs := s.inputs,
                     responses := s.responses } := rfl

section
variable (p q : Word) (s : State)

theorem exec_rfClear : exec (.rfClear p q) s = .next (s.clearRegs.respond .done) := rfl

theorem exec_memClear : exec (.memClear p q) s = .next (s.clearMem.respond .done) := rfl

end

/-- Settles O9: the two clears act on different parts of the block, so the second of them, in either order, keeps
what the first has cleared. -/
theorem resetEqualsBothClears : Obligations.ResetEqualsBothClears := by
  intro s rest p q p' q' hin
  refine ⟨?_, ⟨_, _, exec_rfClear p q s, exec_memClear p' q' _, ?_⟩,
    ⟨_, _, exec_memClear p' q' s, exec_rfClear p q _, ?_⟩⟩
  · rw [step_reset hin, State.resetBlock_eq]
  · simp
  · simp

end Sys2Proof.Machine
end
